-- ==== Sys2Proof/Word.lean ====
section
/-! DEFINITION. The word types of the block: a byte, a register address, a line level (00_scope.md R9, 20_memory.md R37). -/

namespace Sys2Proof

/-- A byte: bit 0 is the least significant bit, bit 7 the most significant (R9). -/
abbrev Byte := BitVec 8

/-- A register address: the 7-bit number of an address byte's bits 6 to 0 (R37, R62). -/
abbrev Addr := BitVec 7

/-- One bit: the level of a line, or the one-bit operand F. `true` is 1, `false` is 0. -/
abbrev Bit := Bool

/-- The name of a line of the digital-I/O collaborator; it has no other meaning (R17). -/
abbrev LineId := Nat

end Sys2Proof
end

