-- ==== Sys2Proof/Config.lean ====
section
/-! DEFINITION. What is fixed for one block: the types of its settings, the parameters the spec leaves open
(00_scope.md R6), and the free values behind every draw (R8). The literals of R5 are in Machine/Constants.lean. -/

namespace Sys2Proof

/-- The order in which the bits of a byte cross the wire (20_memory.md R42). -/
inductive BitOrder where
  | msbFirst
  | lsbFirst
deriving DecidableEq, Repr

/-- CFG.BUS_SETTINGS: what the shared bus resource is given at the start of a frame (10_state.md R19). -/
structure BusSettings where
  clockHz  : Nat
  bitOrder : BitOrder
  cpol     : Bit
  cpha     : Bit
deriving DecidableEq, Repr

/-- FLOAT_FMT (R6): a binary floating-point format by its significand bits and its least and largest exponent. -/
structure FloatFmt where
  sigBits : Nat
  expMin  : Int
  expMax  : Int
deriving DecidableEq, Repr

/-- "at least 19 significand bits and exponent range covering 2^-8 to 2^11" (R6). -/
def FloatFmt.legal (f : FloatFmt) : Bool :=
  decide (19 ≤ f.sigBits) && decide (f.expMin ≤ -8) && decide (11 ≤ f.expMax)

/-- The parameters of R6 that are not part of the device handle. -/
structure Params where
  addrCr0     : Addr
  addrCr1     : Addr
  addrCjt     : Addr
  addrLtc     : Addr
  addrSr      : Addr
  autoMask    : Byte
  oneShotMask : Byte
  floatFmt    : FloatFmt
  maxCount    : Nat
deriving DecidableEq, Repr

/-- A mask with exactly one bit set. -/
def oneBitMask (m : Byte) : Bool :=
  (List.range 8).any fun i => decide (m.toNat = 2 ^ i)

/-- The addresses the five regions of R48 occupy, region by region. -/
def Params.regionBytes (p : Params) : List Nat :=
  [p.addrCr0.toNat, p.addrCr1.toNat, p.addrCjt.toNat, p.addrCjt.toNat + 1,
   p.addrLtc.toNat, p.addrLtc.toNat + 1, p.addrLtc.toNat + 2, p.addrSr.toNat]

/-- The constraints R6 and R48 put on a choice of the parameters: every region within 0x00 to 0x0F, no two
overlapping; the two CR0 masks one-bit masks, distinct from each other and the one-shot mask from the filter bit
(92_eei_decisions.md D16: both are distinct from 0x01); a positive MAX_COUNT; a legal FLOAT_FMT. -/
def Params.legal (p : Params) : Bool :=
  p.regionBytes.all (fun a => decide (a < 16)) && decide p.regionBytes.Nodup
    && oneBitMask p.autoMask && oneBitMask p.oneShotMask
    && decide (p.autoMask ≠ p.oneShotMask) && decide (p.autoMask ≠ 0x01#8) && decide (p.oneShotMask ≠ 0x01#8)
    && decide (0 < p.maxCount) && p.floatFmt.legal

/-- The level the data-in line has at the n-th draw the environment's list does not settle: a free input under no
law (R8). Log 7. -/
opaque Config.freeBit : Nat → Bit

/-- The byte the shared bus resource returns at the n-th draw the environment's list does not settle: a free input
under no law (R8). Log 7. -/
opaque Config.freeByte : Nat → Byte

end Sys2Proof
end

