-- ==== Sys2Proof/Machine/Constants.lean ====
section
/-! DEFINITION. The constants the document fixes (00_scope.md R5) and the parameter values the spec suggests (R6). -/

namespace Sys2Proof.Config

/-- `N_REG`: the target has sixteen register addresses, 0x00 to 0x0F. -/
def nReg : Nat := 16

/-- `WRITE_FLAG`: OR-ed into the address byte of a write frame. -/
def writeFlag : Byte := 0x80#8

/-- `DUMMY`: the byte clocked out for every payload byte of a read frame. -/
def dummy : Byte := 0xFF#8

/-- `HW_BIT_ORDER`. -/
def hwBitOrder : BitOrder := .msbFirst

/-- `SW_BIT_ORDER`: the order of the software-bus path, exposed so that a claim can name it (20_memory.md R42,
90_conflicts.md C1). -/
def swBitOrder : BitOrder := .lsbFirst

/-- `BITS_PER_BYTE`: clock pulses per transferred byte. -/
def bitsPerByte : Nat := 8

/-- CFG.BUS_SETTINGS: 500 kHz, most significant bit first, polarity 1 and phase 1 (10_state.md R19). -/
def busSettings : BusSettings := ⟨500000, hwBitOrder, true, true⟩

/-- `T_BASE_60`, `T_BASE_50`, `T_INC_60`, `T_INC_50`, in milliseconds. -/
def tBase60 : Nat := 155
def tBase50 : Nat := 185
def tInc60 : Nat := 34
def tInc50 : Nat := 40

/-- `CR1_TYPE_MASK`, `CR1_AVG_MASK`, `CR0_FILTER_MASK`. -/
def cr1TypeMask : Byte := 0x0F#8
def cr1AvgMask : Byte := 0x70#8
def cr0FilterMask : Byte := 0x01#8

/-- `TC_RESERVED_MASK`: the low 5 bits of the third linearised-temperature byte. -/
def tcReservedMask : Byte := 0x1F#8

/-- `TC_SHIFT`: the arithmetic right shift of the linearised code. -/
def tcShift : Nat := 5

/-- `TC_DIV = 2^7` and `CJ_DIV = 2^8`, by their exponents. -/
def tcDivLog : Nat := 7
def cjDivLog : Nat := 8

/-- IEEE 754 binary32: 24-bit significand, exponents -126 to 127 (R6, 41_decoder.md R98). -/
def binary32 : FloatFmt := ⟨24, -126, 127⟩

/-- The defaults of R6. PRESUMED for addresses and masks (the spec takes them from general knowledge of the chip),
DESIGN CHOICE for FLOAT_FMT and MAX_COUNT (the spec's suggestion): unsafe, log 4. Every claim over all states holds for
every other choice too: the parameters are fields of State. -/
def suggestedParams : Params where
  addrCr0 := 0x00#7
  addrCr1 := 0x01#7
  addrCjt := 0x0A#7
  addrLtc := 0x0C#7
  addrSr := 0x0F#7
  autoMask := 0x80#8
  oneShotMask := 0x40#8
  floatFmt := binary32
  maxCount := 16

end Sys2Proof.Config
end

