-- ==== Sys2Proof/Syntax.lean ====
section
/-! DEFINITION. The instructions: one constructor for every row of spec/opcode_table.json, and what the host can
present to the block (30_encoding.md R62, R63). -/

namespace Sys2Proof

/-- The two wire-frame formats (R57, R58) and the eighteen commands (R63). -/
inductive Instr where
  /-- RDFRAME: the read frame at address `a` with `n` dummy bytes (R57). -/
  | rdframe (a : Addr) (n : Nat)
  /-- WRFRAME: the write frame at address `a` with payload `d` (R58). -/
  | wrframe (a : Addr) (d : List Byte)
  /-- XFER v: one byte exchange outside any frame (R80). -/
  | xfer (v : Byte)
  /-- RDREG a (R81). -/
  | rdreg (a : Addr)
  /-- RDREGS a, n (R82). -/
  | rdregs (a : Addr) (n : Nat)
  /-- WRREG a, d (R83). -/
  | wrreg (a : Addr) (d : Byte)
  /-- WRREGS a, d (R84). -/
  | wrregs (a : Addr) (d : List Byte)
  /-- DECTC b0, b1, b2 (R91). -/
  | dectc (b0 b1 b2 : Byte)
  /-- DECCJ b0, b1 (R94). -/
  | deccj (b0 b1 : Byte)
  /-- BEGIN (R102). -/
  | beginDev
  /-- SETTC t (R103). -/
  | settc (t : BitVec 4)
  /-- GETTC (R104). -/
  | gettc
  /-- SETAVG s: the 3-bit selector (R105). -/
  | setavg (sel : BitVec 3)
  /-- GETAVG (R106). -/
  | getavg
  /-- SETNF f: 1 = 50 Hz, 0 = 60 Hz (R107). -/
  | setnf (f : Bit)
  /-- GETNF (R108). -/
  | getnf
  /-- TRIG (R110). -/
  | trig
  /-- RDTC (R114). -/
  | rdtc
  /-- RDCJ (R116). -/
  | rdcj
  /-- RDFAULT (R118). -/
  | rdfault
deriving DecidableEq, Repr

/-- The command port: the 5-bit code and the operand ports, each on its own (R62). -/
structure Port where
  op : BitVec 5
  a  : Addr
  n  : Nat
  d  : List Byte
  t  : BitVec 4
  s  : BitVec 3
  f  : Bit
deriving DecidableEq, Repr

/-- What the host presents: a command on the command port, or the bytes of one wire frame to be put on the serial side
(the two wire-frame rows of the opcode table; log 11). -/
inductive Presented where
  | command (p : Port)
  | frame (bytes : List Byte)
deriving DecidableEq, Repr

/-- The reasons the decoder rejects what is presented, by name. -/
inductive Reject where
  /-- An OP outside the table of R63 (R69, 93_implementation_defined.md U1). -/
  | reservedOp (op : BitVec 5)
  /-- The data list has not the length the command's row gives (R63). -/
  | dataLength (op : BitVec 5)
  /-- A frame without an address byte (R59). -/
  | noAddressByte
  /-- A read frame whose payload bytes are not all DUMMY: no frame of the block (R57). -/
  | readPayloadNotDummy
deriving DecidableEq, Repr

end Sys2Proof
end

