-- ==== Sys2Proof/Decode.lean ====
section
/-! DEFINITION. The decoder: from what the host presents to an instruction, or to a rejection by name; the encoder, from
the same tables (30_encoding.md R56 to R63); the opcode table's numbering; the written syntax (R72). -/

namespace Sys2Proof

/-- The address byte of a read frame: `A & 0x7F` (R56, R64). -/
def readAddressByte (a : Addr) : Byte := a.setWidth 8 &&& 0x7F#8

/-- The address byte of a write frame: `(A & 0x7F) | 0x80` (R56, R64). -/
def writeAddressByte (a : Addr) : Byte := (a.setWidth 8 &&& 0x7F#8) ||| Config.writeFlag

/-- The address an address byte carries in its bits 6 to 0 (R56). -/
def addressOf (ab : Byte) : Addr := ab.setWidth 7

/-- The command codes of R63; the numbering is the spec's own (D3). -/
def decodeCommand (p : Port) : Except Reject Instr :=
  match p.op.toNat with
  | 0x00 => match p.d with
    | [v] => .ok (.xfer v)
    | _ => .error (.dataLength p.op)
  | 0x01 => .ok (.rdreg p.a)
  | 0x02 => .ok (.rdregs p.a p.n)
  | 0x03 => match p.d with
    | [d] => .ok (.wrreg p.a d)
    | _ => .error (.dataLength p.op)
  | 0x04 => .ok (.wrregs p.a p.d)
  | 0x08 => match p.d with
    | [b0, b1, b2] => .ok (.dectc b0 b1 b2)
    | _ => .error (.dataLength p.op)
  | 0x09 => match p.d with
    | [b0, b1] => .ok (.deccj b0 b1)
    | _ => .error (.dataLength p.op)
  | 0x10 => .ok .beginDev
  | 0x11 => .ok (.settc p.t)
  | 0x12 => .ok .gettc
  | 0x13 => .ok (.setavg p.s)
  | 0x14 => .ok .getavg
  | 0x15 => .ok (.setnf p.f)
  | 0x16 => .ok .getnf
  | 0x17 => .ok .trig
  | 0x18 => .ok .rdtc
  | 0x19 => .ok .rdcj
  | 0x1A => .ok .rdfault
  | _ => .error (.reservedOp p.op)

/-- A wire frame: bit 7 of the address byte tells the two formats apart (R59). The payload of a read frame is `DUMMY`
throughout (R57). -/
def decodeFrame (bytes : List Byte) : Except Reject Instr :=
  match bytes with
  | [] => .error .noAddressByte
  | ab :: d =>
    if ab.getLsbD 7 then .ok (.wrframe (addressOf ab) d)
    else if d.all (fun b => decide (b = Config.dummy)) then .ok (.rdframe (addressOf ab) d.length)
    else .error .readPayloadNotDummy

/-- The decoder, total on everything that can be presented. -/
def decode (p : Presented) : Except Reject Instr :=
  match p with
  | .command q => decodeCommand q
  | .frame bytes => decodeFrame bytes

/-- The command port with code `op` and every operand port zero. -/
def port (op : BitVec 5) : Port := ⟨op, 0#7, 0, [], 0#4, 0#3, false⟩

/-- The encoder, from the same tables; an operand port the command does not use is zero. -/
def encode (i : Instr) : Presented :=
  match i with
  | .rdframe a n => .frame (readAddressByte a :: List.replicate n Config.dummy)
  | .wrframe a d => .frame (writeAddressByte a :: d)
  | .xfer v => .command { port 0x00#5 with d := [v] }
  | .rdreg a => .command { port 0x01#5 with a := a }
  | .rdregs a n => .command { port 0x02#5 with a := a, n := n }
  | .wrreg a d => .command { port 0x03#5 with a := a, d := [d] }
  | .wrregs a d => .command { port 0x04#5 with a := a, d := d }
  | .dectc b0 b1 b2 => .command { port 0x08#5 with d := [b0, b1, b2] }
  | .deccj b0 b1 => .command { port 0x09#5 with d := [b0, b1] }
  | .beginDev => .command (port 0x10#5)
  | .settc t => .command { port 0x11#5 with t := t }
  | .gettc => .command (port 0x12#5)
  | .setavg sel => .command { port 0x13#5 with s := sel }
  | .getavg => .command (port 0x14#5)
  | .setnf f => .command { port 0x15#5 with f := f }
  | .getnf => .command (port 0x16#5)
  | .trig => .command (port 0x17#5)
  | .rdtc => .command (port 0x18#5)
  | .rdcj => .command (port 0x19#5)
  | .rdfault => .command (port 0x1A#5)

/-- How many bytes the data port of a command carries in the opcode table's numbering, which gives operands no bits: the
row's own number of zero bytes (a list of free length is empty). -/
def tableDataLength (op : Nat) : Nat :=
  match op with
  | 0x00 => 1
  | 0x03 => 1
  | 0x08 => 3
  | 0x09 => 2
  | _ => 0

/-- The bytes of `w`, the first in bits 7 to 0. -/
def tableBytes (n w : Nat) : List Byte :=
  match n with
  | 0 => []
  | k + 1 => BitVec.ofNat 8 w :: tableBytes k (w / 256)

/-- What is presented for a word of the opcode table. The table numbers two ports in one space: a word of at most 8 bits
below 0x20 is a command code with zero operands, every other word is the bytes of a wire frame (log 12). -/
def tableItem (nbits w : Nat) : Presented :=
  if nbits ≤ 8 ∧ w < 0x20 then
    .command { port (BitVec.ofNat 5 w) with d := List.replicate (tableDataLength w) 0#8 }
  else .frame (tableBytes (max 1 ((nbits + 7) / 8)) w)

/-- The instruction the decoder reads from a word of the opcode table. -/
def decodeTableWord (nbits w : Nat) : Option Instr :=
  match decode (tableItem nbits w) with
  | .ok i => some i
  | .error _ => none

/-- One hexadecimal digit. -/
def hexDigit (n : Nat) : Char := if n < 10 then Char.ofNat (48 + n) else Char.ofNat (55 + n)

/-- A number below 256 in hexadecimal, `0x` and two digits (R72). -/
def hexText (n : Nat) : String := "0x" ++ String.ofList [hexDigit (n / 16), hexDigit (n % 16)]

/-- The elements separated by commas. -/
def commaText (xs : List String) : String := ", ".intercalate xs

/-- The written form of an instruction: the mnemonic, then its operands separated by commas, a byte list in square
brackets (R72). -/
def Instr.text (i : Instr) : String :=
  match i with
  | .rdframe a n => "RDFRAME " ++ commaText [hexText a.toNat, toString n]
  | .wrframe a d => "WRFRAME " ++ commaText [hexText a.toNat, "[" ++ commaText (d.map fun b => hexText b.toNat) ++ "]"]
  | .xfer v => "XFER " ++ hexText v.toNat
  | .rdreg a => "RDREG " ++ hexText a.toNat
  | .rdregs a n => "RDREGS " ++ commaText [hexText a.toNat, toString n]
  | .wrreg a d => "WRREG " ++ commaText [hexText a.toNat, hexText d.toNat]
  | .wrregs a d => "WRREGS " ++ commaText [hexText a.toNat, "[" ++ commaText (d.map fun b => hexText b.toNat) ++ "]"]
  | .dectc b0 b1 b2 => "DECTC " ++ commaText [hexText b0.toNat, hexText b1.toNat, hexText b2.toNat]
  | .deccj b0 b1 => "DECCJ " ++ commaText [hexText b0.toNat, hexText b1.toNat]
  | .beginDev => "BEGIN"
  | .settc t => "SETTC " ++ hexText t.toNat
  | .gettc => "GETTC"
  | .setavg sel => "SETAVG " ++ toString sel.toNat
  | .getavg => "GETAVG"
  | .setnf f => "SETNF " ++ (if f then "1" else "0")
  | .getnf => "GETNF"
  | .trig => "TRIG"
  | .rdtc => "RDTC"
  | .rdcj => "RDCJ"
  | .rdfault => "RDFAULT"

end Sys2Proof
end

