-- ==== Sys2Proof/Machine/State.lean ====
section
/-! DEFINITION. The state of the block, of the chip at the other end of the bus as far as frames show it, and of the
environment, as plain data; the state right after reset; the reasons a step can stop (10_state.md). -/

namespace Sys2Proof.Machine

/-- CFG.MODE with the lines that exist in that mode. Only the chip-select line exists in HW mode; a handle with one or
two of the three software-bus lines cannot be written down (R16, R17). -/
inductive Lines where
  | hw
  | sw (sckId mosiId misoId : LineId)
deriving DecidableEq, Repr

/-- CFG.MODE (R16). -/
inductive Mode where
  | hw
  | sw
deriving DecidableEq, Repr

/-- CFG, the device handle: written once, when it is created, and never again (R15). -/
structure Cfg where
  /-- CFG.MODE, CFG.SCK_ID, CFG.MOSI_ID, CFG.MISO_ID (R16, R17). -/
  lines       : Lines
  /-- CFG.CS_ID (R17). -/
  csId        : LineId
  /-- CFG.TCTYPE (R18). -/
  tcType      : BitVec 4
  /-- CFG.BUS_SETTINGS (R19). -/
  busSettings : BusSettings
deriving DecidableEq, Repr

/-- The mode tag, fixed at construction (R16). -/
def Cfg.mode (c : Cfg) : Mode :=
  match c.lines with
  | .hw => .hw
  | .sw _ _ _ => .sw

/-- PHASE: what stands in for a program counter while a command runs (R21). -/
inductive Phase where
  | idle
  | addr
  | data
  | wait
deriving DecidableEq, Repr

/-- The working registers, dead between commands (R20, R21, R27). -/
structure Work where
  /-- TXSR: the byte being sent. -/
  txsr    : Byte
  /-- RXSR: the byte being assembled. -/
  rxsr    : Byte
  /-- BITCNT: pulses done in the current XFER, 0 to 8. -/
  bitCnt  : Nat
  /-- BYTEIDX: the index of the payload byte being moved. -/
  byteIdx : Nat
  /-- RBUF: payload bytes captured by the current read frame, at most MAX_COUNT (kept by every step: Inv in Safety.lean). -/
  rbuf    : List Byte
  /-- DEC_IN: the assembled code of the current decoder command. -/
  decIn   : BitVec 24
  /-- DEC_OUT: degrees Celsius, held as the exact rational R98 allows. -/
  decOut  : Rat
deriving DecidableEq, Repr

/-- RESULT: what a command hands back to the host (30_encoding.md R62, R63). -/
inductive Result where
  | nothing
  | byte (b : Byte)
  | bytes (bs : List Byte)
  | tcType (t : BitVec 4)
  | count (n : Nat)
  | bit (b : Bit)
  | float (x : Rat)
deriving DecidableEq, Repr

/-- The event alphabet (R26). -/
inductive Event where
  | busBegin (s : BusSettings)
  | busEnd
  | cs (l : Bit)
  | busXfer (o i : Byte)
  | sck (l : Bit)
  | mosi (l : Bit)
  | miso (l : Bit)
  | delay (ms : Nat)
deriving DecidableEq, Repr

/-- Bytes by address, in one canonical form (Memory.wf in Machine/Ops.lean). -/
abbrev Memory := List Host.Cell

/-- Where the chip stands in the frame on the wire: outside a frame, waiting for the address byte, or at payload byte
`k` of a write or read frame at address `a` (30_encoding.md R59, 20_memory.md R40). -/
inductive Rx where
  | idle
  | address
  | payload (write : Bit) (a : Nat) (k : Nat)
deriving DecidableEq, Repr

/-- The chip's conversion state, which the block cannot read (R35). -/
inductive Conversion where
  | idle
  | converting
deriving DecidableEq, Repr

/-- The chip at the other end of the bus. `fixture` is the byte array of the optional test target (20_memory.md R55);
with `none` nothing is known of its registers and every reply is a draw (00_scope.md R8). -/
structure Chip where
  rx      : Rx
  conv    : Conversion
  fixture : Option Memory
deriving DecidableEq, Repr

/-- Where received bits and bytes come from: what the environment is going to give, in order, and the counter a free
value is applied to when that list is empty (00_scope.md R8; log 7). -/
structure Env where
  misoIn : List Bit
  busIn  : List Byte
  drawn  : Nat
deriving DecidableEq, Repr

/-- The whole state. -/
structure State where
  /-- CFG (R15). -/
  cfg     : Cfg
  /-- The parameters of 00_scope.md R6; no command writes them. -/
  par     : Params
  /-- PHASE (R21). -/
  phase   : Phase
  /-- The working registers (R20). -/
  work    : Work
  /-- RESULT (30_encoding.md R62). -/
  result  : Result
  /-- BUS_HELD (R24). -/
  busHeld : Bit
  /-- CS_N, active low (R23). -/
  csN     : Bit
  /-- SCK, idle high, SW mode (R23). -/
  sck     : Bit
  /-- MOSI, SW mode (R23). -/
  mosi    : Bit
  /-- The chip at the other end. -/
  chip    : Chip
  /-- The environment's inputs. -/
  env     : Env
  /-- The events emitted so far, the oldest first (R26). -/
  trace   : List Event
  /-- What the host has still to present, the next first (70_reset_and_hazards.md R150). -/
  host    : List Presented
deriving DecidableEq, Repr

/-- The block has no fault: "No rule of this spec produces a fault" (60_exceptions.md R132a), so there is no constructor. -/
inductive Fault where
deriving DecidableEq, Repr

/-- The refusals: each the model's own boundary, none of them behaviour of the block (60_exceptions.md R132b). All are
safe: the model stops where the spec lets it stop. -/
inductive Refusal where
  /-- Raised by an arm of exec whose instruction has no meaning yet; no arm of this model raises it. Safe. -/
  | notModelled (mnemonic : String)
  /-- Raised by fetching: the decoder rejects what is presented (30_encoding.md R69, U1). Safe. -/
  | rejected (r : Reject)
  /-- Raised by fetching: a command is presented while PHASE is not IDLE and is not accepted (60_exceptions.md R122). Safe. -/
  | busy
  /-- Raised by XFER in HW mode: the shared bus is not held and its response is not stated (40_transport.md R80, U2). Safe. -/
  | xferWithoutBus
  /-- Raised by RDFRAME, WRFRAME, RDREGS, WRREGS, and by RDTC and RDCJ for the RDREGS of 3 and 2 bytes they contain: a byte count
  above MAX_COUNT (30_encoding.md R69, R73, U3). Safe. -/
  | countAboveMax (n : Nat)
  /-- Raised by every command with a frame, under the test target only: a frame off its map (20_memory.md R55, R49). Safe. -/
  | offTargetMap
deriving DecidableEq, Repr

/-- The state right after reset, the creation of the handle (R36, 70_reset_and_hazards.md R133). Stated by R36: PHASE,
BYTEIDX, BITCNT, BUS_HELD, CFG.BUS_SETTINGS, and an empty trace (R133: nothing is sent). DESIGN CHOICE, unsafe: the
constructor's arguments (log 3), the parameters (log 4, its addresses and masks PRESUMED), the launch levels of CS_N and
SCK (log 5), the working registers, RESULT and MOSI (log 6), no test target (log 8), the chip's conversion state (log 10). -/
def State.reset : State where
  cfg := ⟨.sw 1 2 3, 0, 0#4, Config.busSettings⟩
  par := Config.suggestedParams
  phase := .idle
  work := ⟨0#8, 0#8, 0, 0, [], 0#24, 0⟩
  result := .nothing
  busHeld := false
  csN := true
  sck := true
  mosi := false
  chip := ⟨.idle, .idle, none⟩
  env := ⟨[], [], 0⟩
  trace := []
  host := []

end Sys2Proof.Machine
end

