-- ==== Sys2Proof/Machine/Flags.lean ====
section
/-! DEFINITION. The block has no status flag, condition code or error latch (10_state.md R22) and no floating-point
exception flag (R27), so no flag is computed. What stands here is the condition under which none could be raised: a
number that is a normal number, or zero, of the format needs no rounding (41_decoder.md R98). -/

namespace Sys2Proof.Machine

/-- `x` is zero or a normal number of the format: `m * 2^(e - (p - 1))` with a full significand of `p` bits and an
exponent in the format's range. Converting it neither rounds nor overflows nor underflows. -/
def Represents (f : FloatFmt) (x : Rat) : Prop :=
  x = 0 ∨ ∃ (m e : Int), 2 ^ (f.sigBits - 1) ≤ m.natAbs ∧ m.natAbs < 2 ^ f.sigBits ∧ f.expMin ≤ e ∧ e ≤ f.expMax ∧
    x = (m : Rat) * (2 : Rat) ^ (e - ((f.sigBits : Int) - 1))

end Sys2Proof.Machine
end

