-- ==== Sys2Proof/Machine/Operands.lean ====
section
/-! DEFINITION. Bits of a byte on the wire (30_encoding.md R60), the register fields (R65 to R67), the wait time
(42_controller.md R111), and the decoder's codes (R68, 41_decoder.md). -/

namespace Sys2Proof.Machine

/-- The order in which the mode puts the bits of a byte on the wire (R60). -/
def wireOrder (m : Mode) : BitOrder :=
  match m with
  | .hw => Config.hwBitOrder
  | .sw => Config.swBitOrder

/-- The bit of a byte that crosses the wire at bit time `t`, 0 to 7 (R60). -/
def serialBit (o : BitOrder) (b : Byte) (t : Nat) : Bit :=
  match o with
  | .msbFirst => b.getLsbD (7 - t)
  | .lsbFirst => b.getLsbD t

/-- The bit times of one byte. -/
def bitTimes : List Nat := [0, 1, 2, 3, 4, 5, 6, 7]

/-- The levels of a byte over bit times 0 to 7 (R60). -/
def serialise (o : BitOrder) (b : Byte) : List Bit := bitTimes.map (serialBit o b)

/-- One received bit into the receive register: on the least-significant-first path "shifted into the top of the result
after the existing bits are shifted right" (40_transport.md R79); the mirror image for the other order. -/
def shiftIn (o : BitOrder) (r : Byte) (m : Bit) : Byte :=
  match o with
  | .lsbFirst => (r >>> 1) ||| (if m then 0x80#8 else 0x00#8)
  | .msbFirst => (r <<< 1) ||| (if m then 0x01#8 else 0x00#8)

/-- The byte a sequence of received levels assembles to, starting from a cleared register (R79). -/
def deserialise (o : BitOrder) (bits : List Bit) : Byte := bits.foldl (shiftIn o) 0x00#8

/-- `rev8(v)`: what a receiver that reads the other bit order sees (00_scope.md R10, 70_reset_and_hazards.md R144). -/
def rev8 (v : Byte) : Byte := deserialise .msbFirst (serialise .lsbFirst v)

/-- `sext_n(v)`: `v` read as an n-bit two's-complement number (00_scope.md R10). -/
def sext (n v : Nat) : Int := if v < 2 ^ (n - 1) then (v : Int) else (v : Int) - 2 ^ n

/-- Insert the thermocouple type: `(cr1 & 0xF0) | (T & 0x0F)` (R65). -/
def insertType (v : Byte) (t : BitVec 4) : Byte :=
  (v &&& ~~~Config.cr1TypeMask) ||| (t.setWidth 8 &&& Config.cr1TypeMask)

/-- Extract the thermocouple type: `cr1 & 0x0F` (R65). -/
def extractType (v : Byte) : BitVec 4 := (v &&& Config.cr1TypeMask).setWidth 4

/-- Insert the averaging selector: `(cr1 & 0x8F) | ((S << 4) & 0x70)` (R66). -/
def insertSelector (v : Byte) (sel : BitVec 3) : Byte :=
  (v &&& ~~~Config.cr1AvgMask) ||| ((sel.setWidth 8 <<< 4) &&& Config.cr1AvgMask)

/-- Extract the averaging selector: `(cr1 & 0x70) >>u 4` (R66). -/
def extractSelector (v : Byte) : Nat := ((v &&& Config.cr1AvgMask) >>> 4).toNat

/-- Insert the noise filter: `cr0 | 0x01` for 50 Hz, `cr0 & 0xFE` for 60 Hz (R67). -/
def insertFilter (v : Byte) (f : Bit) : Byte :=
  if f then v ||| Config.cr0FilterMask else v &&& ~~~Config.cr0FilterMask

/-- Extract the noise filter: `cr0 & 0x01` (R67). -/
def extractFilter (v : Byte) : Bit := decide (v &&& Config.cr0FilterMask = 0x01#8)

/-- The value TRIG writes to CR0: auto-convert cleared, one-shot set (R67). -/
def triggerValue (p : Params) (c0 : Byte) : Byte := (c0 &&& ~~~p.autoMask) ||| p.oneShotMask

/-- `count_of(S)`: the samples a selector stands for (42_controller.md R106). -/
def countOf (sel : Nat) : Nat :=
  match sel with
  | 0 => 1
  | 1 => 2
  | 2 => 4
  | 3 => 8
  | _ => 16

/-- `wait_ms(c0, c1)` in milliseconds (42_controller.md R111). -/
def waitMs (c0 c1 : Byte) : Nat :=
  let n := countOf (extractSelector c1)
  if extractFilter c0 then Config.tBase50 + (n - 1) * Config.tInc50
  else Config.tBase60 + (n - 1) * Config.tInc60

/-- `raw24 = (b0 << 16) | (b1 << 8) | (b2 & 0xE0)`, on integers (R68, 41_decoder.md R92, R96). -/
def raw24 (b0 b1 b2 : Byte) : Nat :=
  (b0.toNat <<< 16) ||| (b1.toNat <<< 8) ||| (b2 &&& ~~~Config.tcReservedMask).toNat

/-- `raw16 = (b0 << 8) | b1`, the corrected composition (R68, 41_decoder.md R95, 90_conflicts.md C7). -/
def raw16 (b0 b1 : Byte) : Nat := (b0.toNat <<< 8) ||| b1.toNat

/-- `to_float(q, k)`: the number `q / 2^k`, exact (00_scope.md R10, 41_decoder.md R98). -/
def toFloat (q : Int) (k : Nat) : Rat := mkRat q (2 ^ k)

/-- The scaled code of the linearised temperature, in units of 1/128 degree: `sext_24(raw24) >>a 5` (41_decoder.md R93). -/
def linearUnits (b0 b1 b2 : Byte) : Int := sext 24 (raw24 b0 b1 b2) >>> Config.tcShift

end Sys2Proof.Machine
end

