-- ==== Sys2Proof/Machine/Ops.lean ====
section
/-! DEFINITION. The shared operations: the register array of the test target, draws, the chip's view of the wire, the
lines, the byte exchange, the frames, and the read-modify-write. The block takes no exception and returns from none
(60_exceptions.md R119, R123, R124), so no operation for that exists. -/

namespace Sys2Proof.Machine

/-! ### The register array of the test target (20_memory.md R55) -/

/-- What an address that is not listed reads as. The spec gives no contents: DESIGN CHOICE, unsafe, log 8. -/
def Memory.unlisted (_a : Nat) : Byte := 0x00#8

/-- One byte. -/
def Memory.read (m : Memory) (a : Nat) : Byte :=
  match m with
  | [] => Memory.unlisted a
  | (k, b) :: rest => if k = a then b else Memory.read rest a

/-- Store one byte, keeping the canonical form. -/
def Memory.write (m : Memory) (a : Nat) (b : Byte) : Memory :=
  match m with
  | [] => if b = Memory.unlisted a then [] else [(a, b)]
  | (k, c) :: rest =>
    if a < k then (if b = Memory.unlisted a then (k, c) :: rest else (a, b) :: (k, c) :: rest)
    else if a = k then (if b = Memory.unlisted a then rest else (a, b) :: rest)
    else (k, c) :: Memory.write rest a b

/-- The canonical form: addresses strictly rising, within the map (R37), and no entry equal to what an unlisted address
reads as. -/
def Memory.wf (m : Memory) : Bool :=
  decide (m.Pairwise fun x y => x.1 < y.1) && m.all fun c => decide (c.1 < Config.nReg) && decide (c.2 ≠ Memory.unlisted c.1)

/-! ### Draws (00_scope.md R8, log 7) -/

/-- `draw_bit()`: the level of the data-in line at this instant. -/
def Env.drawBit (e : Env) : Bit × Env :=
  match e.misoIn with
  | m :: rest => (m, { e with misoIn := rest })
  | [] => (Config.freeBit e.drawn, { e with drawn := e.drawn + 1 })

/-- `draw_byte()`: the byte the shared bus resource returns. -/
def Env.drawByte (e : Env) : Byte × Env :=
  match e.busIn with
  | b :: rest => (b, { e with busIn := rest })
  | [] => (Config.freeByte e.drawn, { e with drawn := e.drawn + 1 })

/-! ### The chip's view of the wire -/

/-- A frame starts when the block drives chip-select low and ends when it drives it high (30_encoding.md R59; log 9). -/
def Chip.select (c : Chip) (l : Bit) : Chip := { c with rx := if l then .idle else .address }

/-- The byte the chip answers during the next exchange, where it is settled: payload byte `k` of a read frame under the
test target is `TGT.R[a + k]`; every other reply is a draw (20_memory.md R55). -/
def Chip.reply (c : Chip) : Option Byte :=
  match c.fixture, c.rx with
  | some m, .payload false a k => if a + k < Config.nReg then some (m.read (a + k)) else none
  | _, _ => none

/-- The conversion state after a payload byte of a write frame: a write to CR0 with the one-shot bit set starts a
conversion (20_memory.md R47, 10_state.md R35; log 10). -/
def Chip.started (p : Params) (a : Nat) (b : Byte) (c : Conversion) : Conversion :=
  if a = p.addrCr0.toNat ∧ b &&& p.oneShotMask ≠ 0x00#8 then .converting else c

/-- The test target stores a payload byte of a write frame within its map (20_memory.md R55). -/
def Chip.stored (f : Option Memory) (a : Nat) (b : Byte) : Option Memory :=
  if a < Config.nReg then f.map fun m => m.write a b else f

/-- The chip takes one byte off the wire: the address byte, then payload byte after payload byte, the address stepping
inside the frame (20_memory.md R40). Outside a frame it ignores the byte (40_transport.md R80). -/
def Chip.accept (p : Params) (c : Chip) (b : Byte) : Chip :=
  match c.rx with
  | .idle => c
  | .address => { c with rx := .payload (b.getLsbD 7) (addressOf b).toNat 0 }
  | .payload true a k =>
    { rx := .payload true a (k + 1), conv := Chip.started p (a + k) b c.conv, fixture := Chip.stored c.fixture (a + k) b }
  | .payload false a k => { c with rx := .payload false a (k + 1) }

/-! ### Events, lines, phases, results -/

/-- `emit E`: append an event to the trace (10_state.md R26). -/
def emit (e : Event) (s : State) : State := { s with trace := s.trace ++ [e] }

/-- Drive CS_N (R23). -/
def driveCs (l : Bit) (s : State) : State := { emit (.cs l) s with csN := l, chip := s.chip.select l }

/-- Drive SCK (R23). -/
def driveSck (l : Bit) (s : State) : State := { emit (.sck l) s with sck := l }

/-- Drive MOSI (R23). -/
def driveMosi (l : Bit) (s : State) : State := { emit (.mosi l) s with mosi := l }

/-- PHASE (R21). -/
def setPhase (p : Phase) (s : State) : State := { s with phase := p }

/-- `return v`: the command completes and hands `v` to the host (00_scope.md R10). -/
def giveResult (r : Result) (s : State) : State := { s with result := r }

/-- `DELAY(w)`: ask the delay primitive for `w` milliseconds; when it returns the conversion's wait has elapsed
(10_state.md R25, R35). -/
def delay (w : Nat) (s : State) : State := { emit (.delay w) s with chip := { s.chip with conv := .idle } }

/-! ### The byte exchange (40_transport.md R76 to R79) -/

/-- Read MISO at bit time `t`: the bit of the chip's reply where that is settled, else a draw. -/
def sampleBit (reply : Option Byte) (t : Nat) (e : Env) : Bit × Env :=
  match reply with
  | some b => (serialBit Config.swBitOrder b t, e)
  | none => e.drawBit

/-- One pulse of `xfer_sw`: fall, drive, rise, sample, shift (R79). -/
def pulse (reply : Option Byte) (s : State) (t : Nat) : State :=
  let s1 := driveSck false { s with work := { s.work with bitCnt := t } }
  let s2 := driveMosi (serialBit Config.swBitOrder s1.work.txsr t) s1
  let s3 := driveSck true s2
  let m := sampleBit reply t s3.env
  let s4 := emit (.miso m.1) { s3 with env := m.2 }
  { s4 with work := { s4.work with rxsr := shiftIn Config.swBitOrder s4.work.rxsr m.1 } }

/-- `xfer_sw(v)`; the byte received is left in RXSR (R79). -/
def xferSw (v : Byte) (s : State) : State :=
  let s1 := { s with work := { s.work with txsr := v, rxsr := 0x00#8 } }
  let s2 := bitTimes.foldl (pulse s.chip.reply) s1
  { s2 with work := { s2.work with bitCnt := Config.bitsPerByte }, chip := s2.chip.accept s2.par v }

/-- What the shared bus resource returns: the chip's reply where that is settled, else a draw. -/
def busReply (reply : Option Byte) (e : Env) : Byte × Env :=
  match reply with
  | some b => (b, e)
  | none => e.drawByte

/-- `xfer_hw(v)`; the byte received is left in RXSR (R77). -/
def xferHw (v : Byte) (s : State) : State :=
  let s1 := { s with work := { s.work with txsr := v } }
  let i := busReply s1.chip.reply s1.env
  let s2 := emit (.busXfer v i.1) { s1 with env := i.2 }
  { s2 with work := { s2.work with rxsr := i.1 }, chip := s2.chip.accept s2.par v }

/-- `xfer(v)`: one byte out and one byte in, by the construction-time tag (R76). -/
def xfer (v : Byte) (s : State) : State :=
  match s.cfg.mode with
  | .hw => xferHw v s
  | .sw => xferSw v s

/-! ### Frames (40_transport.md R78, R82, R84) -/

/-- `frame_begin()`: in HW mode acquire the shared bus, then select (R78). -/
def frameBegin (s : State) : State :=
  match s.cfg.mode with
  | .hw => driveCs false { emit (.busBegin s.cfg.busSettings) s with busHeld := true }
  | .sw => driveCs false s

/-- `frame_end()`: deselect, then in HW mode release the shared bus (R78). -/
def frameEnd (s : State) : State :=
  match s.cfg.mode with
  | .hw => { emit .busEnd (driveCs true s) with busHeld := false }
  | .sw => driveCs true s

/-- `x[RBUF][k] <- xfer(0xFF)` (R82). -/
def readByte (k : Nat) (s : State) : State :=
  let s1 := xfer Config.dummy { s with work := { s.work with byteIdx := k } }
  { s1 with work := { s1.work with rbuf := s1.work.rbuf ++ [s1.work.rxsr] } }

/-- The payload loop of a read frame: `n` more bytes from index `k` on (R82). -/
def readPayload (n k : Nat) (s : State) : State :=
  match n with
  | 0 => s
  | n + 1 => readPayload n (k + 1) (readByte k s)

/-- `_ <- xfer(d[k])` (R84). -/
def writeByte (k : Nat) (b : Byte) (s : State) : State := xfer b { s with work := { s.work with byteIdx := k } }

/-- The payload loop of a write frame, from index `k` on (R84). -/
def writePayload (d : List Byte) (k : Nat) (s : State) : State :=
  match d with
  | [] => s
  | b :: rest => writePayload rest (k + 1) (writeByte k b s)

/-- One read frame, its payload left in RBUF (R57, R82). With `n = 0` it is the address byte alone (R85). -/
def readFrame (a : Addr) (n : Nat) (s : State) : State :=
  let s1 := xfer (readAddressByte a) (frameBegin (setPhase .addr s))
  let s2 := setPhase .data s1
  let s3 := readPayload n 0 { s2 with work := { s2.work with rbuf := [] } }
  setPhase .idle (frameEnd s3)

/-- One write frame (R58, R84). With the empty list it is the address byte alone (R85). -/
def writeFrame (a : Addr) (d : List Byte) (s : State) : State :=
  let s1 := xfer (writeAddressByte a) (frameBegin (setPhase .addr s))
  setPhase .idle (frameEnd (writePayload d 0 (setPhase .data s1)))

/-- Element `k` of RBUF. -/
def State.rbufByte (s : State) (k : Nat) : Byte := s.work.rbuf.getD k 0x00#8

/-- `rmw(a, f)`: read the register in one frame, write `f` of it in a second one, always (42_controller.md R101). -/
def rmw (a : Addr) (f : Byte → Byte) (s : State) : State :=
  let s1 := readFrame a 1 s
  writeFrame a [f (s1.rbufByte 0)] s1

/-! ### What the model stops on -/

/-- A frame of `n` payload bytes at `a` is within the test target's map, or no test target is attached
(20_memory.md R49, R55). -/
def State.onMap (s : State) (a : Addr) (n : Nat) : Bool :=
  s.chip.fixture.isNone || decide (a.toNat + (n - 1) < Config.nReg)

/-- Go on to `t` if every frame the command is going to send is within the test target's map, else refuse before the
first `frame_begin()` (60_exceptions.md R123; log 15). -/
def onTarget (frames : List (Addr × Nat)) (s t : State) : Host.Outcome State Fault Refusal :=
  if frames.all fun f => s.onMap f.1 f.2 then .next t else .refused .offTargetMap

/-- Go on if the byte count is in the command's domain, else refuse (30_encoding.md R69, U3). -/
def countChecked (n : Nat) (s : State) (go : Host.Outcome State Fault Refusal) : Host.Outcome State Fault Refusal :=
  if n ≤ s.par.maxCount then go else .refused (.countAboveMax n)

/-- One byte of the test target's array, where one is attached. -/
def State.peek (s : State) (a : Nat) : Option Byte := s.chip.fixture.map fun m => m.read a

end Sys2Proof.Machine
end

