-- ==== Sys2Proof/Machine/Decoder.lean ====
section
/-! DEFINITION. The decoder commands DECTC and DECCJ (41_decoder.md): they read only their operands, write DEC_IN and DEC_OUT,
and emit no event (R99). -/

namespace Sys2Proof.Machine

/-- The steps of DECTC, DEC_OUT being the value returned (R91). -/
def decodeLinear (b0 b1 b2 : Byte) (s : State) : State :=
  let s1 := { s with work := { s.work with decIn := BitVec.ofNat 24 (raw24 b0 b1 b2) } }
  let s2 := { s1 with work := { s1.work with decOut := toFloat (linearUnits b0 b1 b2) Config.tcDivLog } }
  giveResult (.float s2.work.decOut) s2

/-- The steps of DECCJ, DEC_OUT being the value returned (R94). -/
def decodeColdJunction (b0 b1 : Byte) (s : State) : State :=
  let s1 := { s with work := { s.work with decIn := BitVec.ofNat 24 (raw16 b0 b1) } }
  let s2 := { s1 with work := { s1.work with decOut := toFloat (sext 16 (raw16 b0 b1)) Config.cjDivLog } }
  giveResult (.float s2.work.decOut) s2

/-- DECTC b0, b1, b2 (R91). -/
def execDectc (b0 b1 b2 : Byte) (s : State) : Host.Outcome State Fault Refusal := .next (decodeLinear b0 b1 b2 s)

/-- DECCJ b0, b1 (R94). -/
def execDeccj (b0 b1 : Byte) (s : State) : Host.Outcome State Fault Refusal := .next (decodeColdJunction b0 b1 s)

end Sys2Proof.Machine
end

