-- ==== Sys2Proof/Machine/Controller.lean ====
section
/-! DEFINITION. The controller macro-commands (42_controller.md): each a fixed sequence of complete frames, field arithmetic
and at most one DELAY; none keeps anything, none examines what it read, none can fail (R101). RDTC and RDCJ contain an
RDREGS of 3 and of 2 bytes (30_encoding.md R73), whose byte count has RDREGS's domain: at most MAX_COUNT, the bound of RBUF
(10_state.md R20; log 14). -/

namespace Sys2Proof.Machine

/-- The frames of a read-modify-write of one register. -/
def rmwFrames (a : Addr) : List (Addr × Nat) := [(a, 1), (a, 1)]

/-- The frames of TRIG. -/
def trigFrames (p : Params) : List (Addr × Nat) := [(p.addrCr0, 1), (p.addrCr1, 1), (p.addrCr0, 1)]

/-- The steps of SETTC (R103). -/
def setType (t : BitVec 4) (s : State) : State := rmw s.par.addrCr1 (fun v => insertType v t) s

/-- The initialisation BEGIN keeps of the hardware set-up: chip-select inactive and, in SW mode, the clock idle high (R102). -/
def idleLines (s : State) : State :=
  match s.cfg.mode with
  | .hw => driveCs true s
  | .sw => driveSck true (driveCs true s)

/-- The steps of TRIG: read CR0, read CR1, write CR0, wait (R110, R113). -/
def trigger (s : State) : State :=
  let s1 := readFrame s.par.addrCr0 1 s
  let c0 := s1.rbufByte 0
  let s2 := readFrame s1.par.addrCr1 1 s1
  let c1 := s2.rbufByte 0
  let s3 := writeFrame s2.par.addrCr0 [triggerValue s2.par c0] s2
  setPhase .idle (delay (waitMs c0 c1) (setPhase .wait s3))

/-- BEGIN (R102). -/
def execBegin (s : State) : Host.Outcome State Fault Refusal :=
  onTarget (rmwFrames s.par.addrCr1) s (giveResult .nothing (setType s.cfg.tcType (idleLines s)))

/-- SETTC t (R103). -/
def execSettc (t : BitVec 4) (s : State) : Host.Outcome State Fault Refusal :=
  onTarget (rmwFrames s.par.addrCr1) s (giveResult .nothing (setType t s))

/-- GETTC (R104). -/
def execGettc (s : State) : Host.Outcome State Fault Refusal :=
  let t := readFrame s.par.addrCr1 1 s
  onTarget [(s.par.addrCr1, 1)] s (giveResult (.tcType (extractType (t.rbufByte 0))) t)

/-- SETAVG s (R105). -/
def execSetavg (sel : BitVec 3) (s : State) : Host.Outcome State Fault Refusal :=
  onTarget (rmwFrames s.par.addrCr1) s (giveResult .nothing (rmw s.par.addrCr1 (fun v => insertSelector v sel) s))

/-- GETAVG (R106). -/
def execGetavg (s : State) : Host.Outcome State Fault Refusal :=
  let t := readFrame s.par.addrCr1 1 s
  onTarget [(s.par.addrCr1, 1)] s (giveResult (.count (countOf (extractSelector (t.rbufByte 0)))) t)

/-- SETNF f (R107). -/
def execSetnf (f : Bit) (s : State) : Host.Outcome State Fault Refusal :=
  onTarget (rmwFrames s.par.addrCr0) s (giveResult .nothing (rmw s.par.addrCr0 (fun v => insertFilter v f) s))

/-- GETNF (R108). -/
def execGetnf (s : State) : Host.Outcome State Fault Refusal :=
  let t := readFrame s.par.addrCr0 1 s
  onTarget [(s.par.addrCr0, 1)] s (giveResult (.bit (extractFilter (t.rbufByte 0))) t)

/-- TRIG (R110). -/
def execTrig (s : State) : Host.Outcome State Fault Refusal :=
  onTarget (trigFrames s.par) s (giveResult .nothing (trigger s))

/-- RDTC: TRIG, then the three bytes of the linearised temperature by RDREGS ADDR_LTC, 3, then DECTC (R114). -/
def execRdtc (s : State) : Host.Outcome State Fault Refusal :=
  let t := readFrame s.par.addrLtc 3 (trigger s)
  countChecked 3 s
    (onTarget (trigFrames s.par ++ [(s.par.addrLtc, 3)]) s (decodeLinear (t.rbufByte 0) (t.rbufByte 1) (t.rbufByte 2) t))

/-- RDCJ: TRIG, then the two bytes of the cold junction by RDREGS ADDR_CJT, 2, then DECCJ (R116). -/
def execRdcj (s : State) : Host.Outcome State Fault Refusal :=
  let t := readFrame s.par.addrCjt 2 (trigger s)
  countChecked 2 s
    (onTarget (trigFrames s.par ++ [(s.par.addrCjt, 2)]) s (decodeColdJunction (t.rbufByte 0) (t.rbufByte 1) t))

/-- RDFAULT: the fault status byte, untouched (R118). -/
def execRdfault (s : State) : Host.Outcome State Fault Refusal :=
  let t := readFrame s.par.addrSr 1 s
  onTarget [(s.par.addrSr, 1)] s (giveResult (.byte (t.rbufByte 0)) t)

end Sys2Proof.Machine
end

