-- ==== Sys2Proof/Machine/Transport.lean ====
section
/-! DEFINITION. The transport commands XFER, RDREG, RDREGS, WRREG, WRREGS (40_transport.md). -/

namespace Sys2Proof.Machine

/-- XFER v: one exchange with CS_N wherever it is; refused in HW mode, where the shared bus is not held (R80, U2). -/
def execXfer (v : Byte) (s : State) : Host.Outcome State Fault Refusal :=
  match s.cfg.mode with
  | .hw => .refused .xferWithoutBus
  | .sw =>
    let t := xfer v s
    .next (giveResult (.byte t.work.rxsr) t)

/-- RDREG a: the first element of a read frame with one payload byte (R81). -/
def execRdreg (a : Addr) (s : State) : Host.Outcome State Fault Refusal :=
  let t := readFrame a 1 s
  onTarget [(a, 1)] s (giveResult (.byte (t.rbufByte 0)) t)

/-- RDREGS a, n (R82, R85). -/
def execRdregs (a : Addr) (n : Nat) (s : State) : Host.Outcome State Fault Refusal :=
  let t := readFrame a n s
  countChecked n s (onTarget [(a, n)] s (giveResult (.bytes t.work.rbuf) t))

/-- WRREG a, d: a write frame with one payload byte (R83). -/
def execWrreg (a : Addr) (d : Byte) (s : State) : Host.Outcome State Fault Refusal :=
  onTarget [(a, 1)] s (giveResult .nothing (writeFrame a [d] s))

/-- WRREGS a, d (R84, R85). -/
def execWrregs (a : Addr) (d : List Byte) (s : State) : Host.Outcome State Fault Refusal :=
  countChecked d.length s (onTarget [(a, d.length)] s (giveResult .nothing (writeFrame a d s)))

end Sys2Proof.Machine
end

