-- ==== Sys2Proof/Machine/WireFrame.lean ====
section
/-! DEFINITION. The two wire-frame rows of the opcode table (30_encoding.md R57, R58): one frame on the serial side, asked of
the framing engine itself. A frame hands nothing to the host: what a read frame captured stays in RBUF (log 11). -/

namespace Sys2Proof.Machine

/-- RDFRAME a, n: the address byte with W = 0, then `n` dummy bytes, the payload captured in RBUF (R57). -/
def execRdframe (a : Addr) (n : Nat) (s : State) : Host.Outcome State Fault Refusal :=
  countChecked n s (onTarget [(a, n)] s (readFrame a n s))

/-- WRFRAME a, d: the address byte with W = 1, then the payload bytes (R58). -/
def execWrframe (a : Addr) (d : List Byte) (s : State) : Host.Outcome State Fault Refusal :=
  countChecked d.length s (onTarget [(a, d.length)] s (writeFrame a d s))

end Sys2Proof.Machine
end

