-- ==== Sys2Proof/Machine/Dispatch.lean ====
section
/-! DEFINITION. The meaning of an instruction: one arm for every constructor, each one call of its meaning. -/

namespace Sys2Proof.Machine

def exec (i : Instr) (s : State) : Host.Outcome State Fault Refusal :=
  match i with
  -- the wire frames
  | .rdframe a n => Sys2Proof.Machine.execRdframe a n s
  | .wrframe a d => Sys2Proof.Machine.execWrframe a d s
  -- the transport commands
  | .xfer v => Sys2Proof.Machine.execXfer v s
  | .rdreg a => Sys2Proof.Machine.execRdreg a s
  | .rdregs a n => Sys2Proof.Machine.execRdregs a n s
  | .wrreg a d => Sys2Proof.Machine.execWrreg a d s
  | .wrregs a d => Sys2Proof.Machine.execWrregs a d s
  -- the decoder commands
  | .dectc b0 b1 b2 => Sys2Proof.Machine.execDectc b0 b1 b2 s
  | .deccj b0 b1 => Sys2Proof.Machine.execDeccj b0 b1 s
  -- the controller macro-commands
  | .beginDev => Sys2Proof.Machine.execBegin s
  | .settc t => Sys2Proof.Machine.execSettc t s
  | .gettc => Sys2Proof.Machine.execGettc s
  | .setavg sel => Sys2Proof.Machine.execSetavg sel s
  | .getavg => Sys2Proof.Machine.execGetavg s
  | .setnf f => Sys2Proof.Machine.execSetnf f s
  | .getnf => Sys2Proof.Machine.execGetnf s
  | .trig => Sys2Proof.Machine.execTrig s
  | .rdtc => Sys2Proof.Machine.execRdtc s
  | .rdcj => Sys2Proof.Machine.execRdcj s
  | .rdfault => Sys2Proof.Machine.execRdfault s

end Sys2Proof.Machine
end

