-- ==== Sys2Proof/Machine/Fetch.lean ====
section
/-! DEFINITION. Accepting what the host presents: the block fetches nothing (10_state.md R21), it takes a command when PHASE is
IDLE and not otherwise (30_encoding.md R62, 60_exceptions.md R122). -/

namespace Sys2Proof.Machine

/-- What is at the command port: nothing, something the block does not take, or an accepted instruction with the state
after it was taken from the port. -/
inductive Fetched where
  | nothing
  | stopped (r : Refusal)
  | accepted (i : Instr) (s : State)
deriving DecidableEq, Repr

/-- Take the next command of the host's run, if there is one (log 2). -/
def fetch (s : State) : Fetched :=
  match s.host with
  | [] => .nothing
  | p :: rest =>
    if s.phase = .idle then
      match decode p with
      | .ok i => .accepted i { s with host := rest }
      | .error r => .stopped (.rejected r)
    else .stopped .busy

/-- `s` with one thing presented, and ready to take it. -/
def State.presenting (s : State) (p : Presented) : State := { s with host := [p], phase := .idle }

end Sys2Proof.Machine
end

