-- ==== Sys2Proof/Machine/Step.lean ====
section
/-! DEFINITION. One step: the block takes the command the host presents and runs it to completion (00_scope.md R7b), or, with
nothing presented, waits (70_reset_and_hazards.md R134). -/

namespace Sys2Proof.Machine

/-- One step. -/
def step (s : State) : Host.Outcome State Fault Refusal :=
  match fetch s with
  | .nothing => .next s
  | .stopped r => .refused r
  | .accepted i t => exec i t

/-- `s` with the word `w` of the opcode table presented at the command port (log 2, log 12). -/
def State.withFetchWord (s : State) (nbits w : Nat) : State := s.presenting (tableItem nbits w)

end Sys2Proof.Machine
end

