-- ==== Sys2Proof/Machine/Trace.lean ====
section
/-! DEFINITION. The byte-level view of the event trace (10_state.md R26). -/

namespace Sys2Proof.Machine

/-- The events of the byte-level view: one exchange is one `xfer`, in either mode (R26). -/
inductive ByteEvent where
  | busBegin (s : BusSettings)
  | busEnd
  | cs (l : Bit)
  | xfer (o i : Byte)
  | delay (ms : Nat)
deriving DecidableEq, Repr

/-- The view, given the levels sent and received so far of the exchange in progress: the eight groups of one software-bus
exchange become one `xfer` at the eighth sample. -/
def byteTraceFrom (o i : List Bit) : List Event → List ByteEvent
  | [] => []
  | .busBegin s :: es => .busBegin s :: byteTraceFrom o i es
  | .busEnd :: es => .busEnd :: byteTraceFrom o i es
  | .cs l :: es => .cs l :: byteTraceFrom o i es
  | .busXfer x y :: es => .xfer x y :: byteTraceFrom o i es
  | .sck _ :: es => byteTraceFrom o i es
  | .mosi l :: es => byteTraceFrom (o ++ [l]) i es
  | .miso l :: es =>
    if i.length = 7 then
      .xfer (deserialise Config.swBitOrder o) (deserialise Config.swBitOrder (i ++ [l])) :: byteTraceFrom [] [] es
    else byteTraceFrom o (i ++ [l]) es
  | .delay ms :: es => .delay ms :: byteTraceFrom o i es

/-- The byte-level view of a trace (R26). -/
def byteTrace (es : List Event) : List ByteEvent := byteTraceFrom [] [] es

/-- The shared bus's bracket, which exists in HW mode only. -/
def ByteEvent.isBus (e : ByteEvent) : Bool :=
  match e with
  | .busBegin _ => true
  | .busEnd => true
  | _ => false

/-- The byte-level view without the shared bus's bracket: the same in both modes (40_transport.md R89). -/
def linkTrace (es : List Event) : List ByteEvent := (byteTrace es).filter fun e => !e.isBus

end Sys2Proof.Machine
end

