-- ==== Sys2Proof/Safety.lean ====
section
/-! DEFINITION. The terms claims are stated in: the events a frame consists of, written down as lists; the state between
commands; what a well-bracketed trace is. -/

namespace Sys2Proof.Machine

/-! ### The events of exchanges and frames -/

/-- One exchange, `o` sent and `i` received: the single bus transfer in HW mode; in SW mode eight pulses, each fall, drive,
rise, sample, bit `t` of either byte at pulse `t` (10_state.md R26, 40_transport.md R77, R79). -/
def exchangeEvents (m : Mode) (o i : Byte) : List Event :=
  match m with
  | .hw => [.busXfer o i]
  | .sw => bitTimes.flatMap fun t =>
      [.sck false, .mosi (serialBit Config.swBitOrder o t), .sck true, .miso (serialBit Config.swBitOrder i t)]

/-- The opening of a frame's bracket (40_transport.md R78). -/
def openEvents (c : Cfg) : List Event :=
  match c.mode with
  | .hw => [.busBegin c.busSettings, .cs false]
  | .sw => [.cs false]

/-- The closing of a frame's bracket (40_transport.md R78). -/
def closeEvents (c : Cfg) : List Event :=
  match c.mode with
  | .hw => [.cs true, .busEnd]
  | .sw => [.cs true]

/-- A whole frame: the exchanges, sent and received, inside one bracket. -/
def frameEvents (c : Cfg) (xs : List (Byte × Byte)) : List Event :=
  openEvents c ++ xs.flatMap (fun x => exchangeEvents c.mode x.1 x.2) ++ closeEvents c

/-- The exchanges of a read frame: `x` comes back during the address byte, `ds` during the dummies (30_encoding.md R57). -/
def readExchanges (a : Addr) (x : Byte) (ds : List Byte) : List (Byte × Byte) :=
  (readAddressByte a, x) :: ds.map fun d => (Config.dummy, d)

/-- The exchanges of a write frame: `x` comes back during the address byte, `rs` during the payload `d`
(30_encoding.md R58). -/
def writeExchanges (a : Addr) (x : Byte) (d rs : List Byte) : List (Byte × Byte) :=
  (writeAddressByte a, x) :: d.zip rs

/-- A frame in the byte-level view, without the shared bus's bracket. -/
def linkFrame (xs : List (Byte × Byte)) : List ByteEvent :=
  [.cs false] ++ xs.map (fun x => .xfer x.1 x.2) ++ [.cs true]

/-- The two frames of a read-modify-write in the byte-level view: `v` is read, `w` is written (42_controller.md R101). -/
def linkRmw (a : Addr) (x v y : Byte) (w z : Byte) : List ByteEvent :=
  linkFrame (readExchanges a x [v]) ++ linkFrame (writeExchanges a y [w] [z])

/-- What TRIG puts on the byte-level view: `c0` is read from CR0, `c1` from CR1, `w` is written to CR0, then a wait of `ms`
milliseconds (42_controller.md R110). -/
def linkTrigger (p : Params) (x0 c0 x1 c1 x2 w y : Byte) (ms : Nat) : List ByteEvent :=
  linkFrame (readExchanges p.addrCr0 x0 [c0]) ++ linkFrame (readExchanges p.addrCr1 x1 [c1])
    ++ linkFrame (writeExchanges p.addrCr0 x2 [w] [y]) ++ [.delay ms]

/-! ### The state between commands -/

/-- The exit invariant: CS_N inactive, the shared bus released, the clock idle, no command running, and no frame on the
wire (40_transport.md R86, 70_reset_and_hazards.md R150). -/
def Quiescent (s : State) : Prop :=
  s.csN = true ∧ s.busHeld = false ∧ (s.cfg.mode = .sw → s.sck = true) ∧ s.phase = .idle ∧ s.chip.rx = .idle

/-- What the configuration and the test target's array satisfy: the constant bus settings (10_state.md R19), parameters
within the constraints of 00_scope.md R6 and 20_memory.md R48, and the array in canonical form (log 8). -/
def Configured (s : State) : Prop :=
  s.cfg.busSettings = Config.busSettings ∧ s.par.legal = true ∧ ∀ m, s.chip.fixture = some m → m.wf = true

/-- The bounds of the working registers: BITCNT 0 to 8, RBUF at most MAX_COUNT bytes (10_state.md R20). -/
def RegistersFit (s : State) : Prop := s.work.bitCnt ≤ Config.bitsPerByte ∧ s.work.rbuf.length ≤ s.par.maxCount

/-- The whole invariant. -/
def Inv (s : State) : Prop := Quiescent s ∧ Configured s ∧ RegistersFit s

/-- The test target's array, where one is attached, is in canonical form (log 8). -/
def TargetWf (s : State) : Prop := ∀ m, s.chip.fixture = some m → m.wf = true

/-- No test target is attached, or the parameters are within the constraints of R6 and R48, so that every frame of a
macro-command is on its map. -/
def MacrosOnMap (s : State) : Prop := s.chip.fixture = none ∨ s.par.legal = true

/-- What every command leaves alone: CFG (10_state.md R15), the parameters, and the host's remaining run. -/
def KeepsHandle (s t : State) : Prop := t.cfg = s.cfg ∧ t.par = s.par ∧ t.host = s.host

/-- What no frame touches: the decoder's registers (10_state.md R20, R27). -/
def KeepsDecoder (s t : State) : Prop := t.work.decIn = s.work.decIn ∧ t.work.decOut = s.work.decOut

/-- Every byte of the test target's array reads as before, and the conversion state is as before. -/
def KeepsTarget (s t : State) : Prop := t.chip.conv = s.chip.conv ∧ ∀ a, t.peek a = s.peek a

/-- Every byte of the test target's array reads as before but the byte at `a`, which reads `v`. -/
def StoresByte (s t : State) (a : Nat) (v : Byte) : Prop :=
  ∀ b, t.peek b = if b = a then s.chip.fixture.map (fun _ => v) else s.peek b

/-- How the block stands when a command with a frame returns (40_transport.md R86): CS_N inactive and PHASE IDLE; in HW mode the
shared bus released and the pin-level lines and counter untouched; in SW mode the clock idle, eight pulses counted, and
BUS_HELD, which does not exist there, untouched. -/
def ReturnsIdle (s t : State) : Prop :=
  t.csN = true ∧ t.phase = .idle ∧ t.chip.rx = .idle ∧
    (s.cfg.mode = .hw → t.busHeld = false ∧ t.sck = s.sck ∧ t.mosi = s.mosi ∧ t.work.bitCnt = s.work.bitCnt) ∧
    (s.cfg.mode = .sw → t.busHeld = s.busHeld ∧ t.sck = true ∧ t.work.bitCnt = 8)

/-- From `s` to `t` the block has emitted events whose byte-level view, without the shared bus's bracket, is `link`; it has
returned idle; and CFG, the parameters and the host's run are as before. -/
def Sends (s t : State) (link : List ByteEvent) : Prop :=
  (∃ evs, t.trace = s.trace ++ evs ∧ linkTrace evs = link) ∧ ReturnsIdle s t ∧ KeepsHandle s t

/-! ### Traces -/

/-- Where a trace stands: between frames; the shared bus held and chip-select still high, before or after the frame; inside
a frame. -/
inductive Bracket where
  | outside
  | busTaken
  | inside
  | deselected
deriving DecidableEq, Repr

/-- One event, in the mode `m`. In HW mode a frame is BUS_BEGIN, CS(0), transfers, CS(1), BUS_END; in SW mode CS(0), pin
events, CS(1). Outside a frame chip-select may be driven inactive, the clock may be driven to its idle level, and a delay
may run. Anything else is out of place (40_transport.md R78, R90, 70_reset_and_hazards.md R143). That the bus is taken before
chip-select falls and released after it rises is the spec's own order (D6); the levels outside a frame are BEGIN's, the spec's
own reading (D21). -/
def Bracket.next (m : Mode) (b : Bracket) (e : Event) : Option Bracket :=
  match m, b, e with
  | .hw, .outside, .busBegin _ => some .busTaken
  | .hw, .busTaken, .cs false => some .inside
  | .hw, .inside, .busXfer _ _ => some .inside
  | .hw, .inside, .cs true => some .deselected
  | .hw, .deselected, .busEnd => some .outside
  | .sw, .outside, .cs false => some .inside
  | .sw, .inside, .sck _ => some .inside
  | .sw, .inside, .mosi _ => some .inside
  | .sw, .inside, .miso _ => some .inside
  | .sw, .inside, .cs true => some .outside
  | .sw, .outside, .sck true => some .outside
  | _, .outside, .cs true => some .outside
  | _, .outside, .delay _ => some .outside
  | _, _, _ => none

/-- The events, one after another. -/
def Bracket.run (m : Mode) (b : Bracket) (es : List Event) : Option Bracket :=
  match es with
  | [] => some b
  | e :: rest => match b.next m e with
    | some c => Bracket.run m c rest
    | none => none

/-- The events form complete frames, each with its own bracket, and nothing is sent outside one. -/
def WellBracketed (m : Mode) (es : List Event) : Prop := Bracket.run m .outside es = some .outside

/-- Every sample of the data-in line returns the level the data-out line was last driven to; `l` is that level before the
first event (40_transport.md R88). -/
def LoopedBack (l : Bit) (es : List Event) : Prop :=
  match es with
  | [] => True
  | .mosi v :: rest => LoopedBack v rest
  | .miso v :: rest => v = l ∧ LoopedBack l rest
  | _ :: rest => LoopedBack l rest

/-- The milliseconds asked of the delay primitive, in order (10_state.md R25). -/
def delays (es : List Event) : List Nat :=
  es.filterMap fun e => match e with
    | .delay w => some w
    | _ => none

/-- The levels the data-out line was driven to, in order. -/
def dataOut (es : List Event) : List Bit :=
  es.filterMap fun e => match e with
    | .mosi l => some l
    | _ => none

/-- The levels the data-in line was sampled at, in order. -/
def dataIn (es : List Event) : List Bit :=
  es.filterMap fun e => match e with
    | .miso l => some l
    | _ => none

end Sys2Proof.Machine
end

