-- ==== Sys2Proof/WellFormed.lean ====
section
/-! DEFINITION. Which instructions are within the commands' domain: a byte count of at most MAX_COUNT (00_scope.md R6,
30_encoding.md R69). Every other bound (7-bit address, 4-bit type, 3-bit selector) is in the operands' types. -/

namespace Sys2Proof

/-- `N` is at most MAX_COUNT, for the forms that have a count (20_memory.md R45). The forms without one are well-formed
as they stand. -/
def Instr.wellFormed (maxCount : Nat) (i : Instr) : Bool :=
  match i with
  | .rdframe _ n => decide (n ≤ maxCount)
  | .wrframe _ d => decide (d.length ≤ maxCount)
  | .rdregs _ n => decide (n ≤ maxCount)
  | .wrregs _ d => decide (d.length ≤ maxCount)
  | .xfer _ => true
  | .rdreg _ => true
  | .wrreg _ _ => true
  | .dectc _ _ _ => true
  | .deccj _ _ => true
  | .beginDev => true
  | .settc _ => true
  | .gettc => true
  | .setavg _ => true
  | .getavg => true
  | .setnf _ => true
  | .getnf => true
  | .trig => true
  | .rdtc => true
  | .rdcj => true
  | .rdfault => true

end Sys2Proof
end

