-- ==== Sys2Proof/Certificates/Slice0/Obligations.lean ====
section
/-! DEFINITION. The statements for the provers, each a definition of type Prop: encoding, the wire, the transport commands,
the decoder, the controller, the whole machine. -/

open Sys2Proof Sys2Proof.Machine

/-! ### Encoding -/

/-- Decoding what an instruction encodes to gives that instruction, at every operand value. -/
def Obligations.EveryInstructionDecodesBack : Prop :=
  ∀ i : Instr, decode (encode i) = .ok i

/-- A wire frame has one meaning, and no bit of it is dropped; what a command port decodes to encodes to the same command
code and decodes again to the same instruction. -/
def Obligations.DecodingLosesNothing : Prop :=
  (∀ (bs : List Byte) (i : Instr), decode (.frame bs) = .ok i → encode i = .frame bs) ∧
  (∀ (p : Port) (i : Instr), decode (.command p) = .ok i →
    ∃ q : Port, encode i = .command q ∧ q.op = p.op ∧ decode (.command q) = .ok i)

/-- Words written out from 30_encoding.md R56 to R58 and R63. The numbering of the command codes is the spec's own (D3). -/
def Obligations.TabulatedWordsDecode : Prop :=
  decode (.frame [0x0C#8, 0xFF#8, 0xFF#8, 0xFF#8]) = .ok (.rdframe 0x0C#7 3) ∧
  decode (.frame [0x8F#8, 0x03#8]) = .ok (.wrframe 0x0F#7 [0x03#8]) ∧
  decode (.command { port 0b00000#5 with d := [0xA5#8] }) = .ok (.xfer 0xA5#8) ∧
  decode (.command { port 0b00010#5 with a := 0x0C#7, n := 3 }) = .ok (.rdregs 0x0C#7 3) ∧
  decode (.command { port 0b01000#5 with d := [0xF0#8, 0x60#8, 0x1F#8] }) = .ok (.dectc 0xF0#8 0x60#8 0x1F#8) ∧
  decode (.command { port 0b10011#5 with s := 0b010#3 }) = .ok (.setavg 0b010#3) ∧
  decode (.command { port 0b10101#5 with f := true }) = .ok (.setnf true) ∧
  decode (.command (port 0b11010#5)) = .ok .rdfault

/-- An OP outside the table of R63 is rejected under its own name and refused by the step, and only such an OP is. The
numbering of the command codes and the refusal are the spec's own (D3, 93_implementation_defined.md U1). -/
def Obligations.ReservedCommandCodesAreRefused : Prop :=
  (∀ (s : State) (p : Port) (rest : List Presented),
    p.op.toNat ∈ [0x05, 0x06, 0x07, 0x0A, 0x0B, 0x0C, 0x0D, 0x0E, 0x0F, 0x1B, 0x1C, 0x1D, 0x1E, 0x1F] →
      s.host = .command p :: rest → s.phase = .idle → step s = .refused (.rejected (.reservedOp p.op))) ∧
  (∀ p : Port, p.op.toNat ∉ [0x05, 0x06, 0x07, 0x0A, 0x0B, 0x0C, 0x0D, 0x0E, 0x0F, 0x1B, 0x1C, 0x1D, 0x1E, 0x1F] →
    ∀ op, decode (.command p) ≠ .error (.reservedOp op))

/-- The block takes the command the host presents and runs it to completion. -/
def Obligations.StepRunsTheDecodedInstruction : Prop :=
  ∀ (s : State) (p : Presented) (rest : List Presented) (i : Instr),
    s.host = p :: rest → s.phase = .idle → decode p = .ok i → step s = exec i { s with host := rest }

/-- With nothing presented the block waits, whatever its state; while PHASE is not IDLE nothing presented is accepted. That
an unaccepted command ends the run is the model's choice (log 1). -/
def Obligations.StepWaitsOrDoesNotAccept : Prop :=
  (∀ s : State, s.host = [] → step s = .next s) ∧
  (∀ (s : State) (p : Presented) (rest : List Presented),
    s.host = p :: rest → s.phase ≠ .idle → step s = .refused .busy)

/-- Bit 7 of the address byte is the write flag, bits 6 to 0 are the register address (the address operand has seven bits:
the spec's own D4). -/
def Obligations.AddressByteHoldsFlagAndAddress : Prop :=
  ∀ a : Addr,
    (readAddressByte a).toNat = a.toNat ∧ (writeAddressByte a).toNat = 128 + a.toNat ∧
    addressOf (readAddressByte a) = a ∧ addressOf (writeAddressByte a) = a

/-! ### The wire -/

/-- R60: bit time t carries b[7 - t] in HW mode and b[t] in SW mode, in both directions; the byte put together from the eight
levels is the byte sent; the example 0x8F. -/
def Obligations.BitTimesCarryTheBitsInTheModesOrder : Prop :=
  (∀ (b : Byte) (t : Nat), t < 8 →
    (serialise (wireOrder .hw) b)[t]? = some (b.getLsbD (7 - t)) ∧
    (serialise (wireOrder .sw) b)[t]? = some (b.getLsbD t)) ∧
  (∀ (m : Mode) (b : Byte), (serialise (wireOrder m) b).length = 8 ∧
    deserialise (wireOrder m) (serialise (wireOrder m) b) = b) ∧
  (∀ v r : Byte, dataOut (exchangeEvents .sw v r) = serialise (wireOrder .sw) v ∧
    dataIn (exchangeEvents .sw v r) = serialise (wireOrder .sw) r) ∧
  serialise (wireOrder .hw) 0x8F#8 = [true, false, false, false, true, true, true, true] ∧
  serialise (wireOrder .sw) 0x8F#8 = [true, true, true, true, false, false, false, true]

/-- R144: a receiver that reads the software path most significant bit first sees `rev8` of every byte, and `rev8` exchanges
bit i and bit 7 - i. -/
def Obligations.SoftwarePathLooksReversed : Prop :=
  (∀ (v : Byte) (i : Nat), i < 8 → (rev8 v).getLsbD i = v.getLsbD (7 - i)) ∧
  (∀ v : Byte, rev8 (rev8 v) = v) ∧
  (∀ v r : Byte, deserialise .msbFirst (dataOut (exchangeEvents .sw v r)) = rev8 v ∧
    deserialise .msbFirst (dataIn (exchangeEvents .sw v r)) = rev8 r)

/-- XFER in SW mode completes from every state: eight pulses, the byte sent on MOSI and the byte received on MISO, CS_N and
the shared bus untouched. The order of the pin operations inside a pulse is the spec's own (D8), and that XFER is a command of
its own is too (D29). -/
def Obligations.XferExchangesOneByteInSoftwareMode : Prop :=
  ∀ (s : State) (v : Byte), s.cfg.mode = .sw →
    ∃ (t : State) (r : Byte), exec (.xfer v) s = .next t ∧
      t.trace = s.trace ++ [
        .sck false, .mosi (v.getLsbD 0), .sck true, .miso (r.getLsbD 0),
        .sck false, .mosi (v.getLsbD 1), .sck true, .miso (r.getLsbD 1),
        .sck false, .mosi (v.getLsbD 2), .sck true, .miso (r.getLsbD 2),
        .sck false, .mosi (v.getLsbD 3), .sck true, .miso (r.getLsbD 3),
        .sck false, .mosi (v.getLsbD 4), .sck true, .miso (r.getLsbD 4),
        .sck false, .mosi (v.getLsbD 5), .sck true, .miso (r.getLsbD 5),
        .sck false, .mosi (v.getLsbD 6), .sck true, .miso (r.getLsbD 6),
        .sck false, .mosi (v.getLsbD 7), .sck true, .miso (r.getLsbD 7)] ∧
      t.result = .byte r ∧ t.work.txsr = v ∧ t.work.rxsr = r ∧ t.work.bitCnt = 8 ∧
      t.work.byteIdx = s.work.byteIdx ∧ t.work.rbuf = s.work.rbuf ∧ KeepsDecoder s t ∧
      t.sck = true ∧ t.mosi = v.getLsbD 7 ∧ t.csN = s.csN ∧ t.busHeld = s.busHeld ∧ t.phase = s.phase ∧
      KeepsHandle s t ∧ (s.chip.rx = .idle → t.chip = s.chip)

/-- XFER v returns v when every sample returns the level the data-out line was last driven to. -/
def Obligations.LoopedBackXferReturnsTheByteSent : Prop :=
  ∀ (s : State) (v : Byte), s.cfg.mode = .sw →
    ∃ (t : State) (evs : List Event), exec (.xfer v) s = .next t ∧ t.trace = s.trace ++ evs ∧
      (LoopedBack s.mosi evs → t.result = .byte v)

/-- A bare XFER in HW mode, where the shared bus is not held, is refused: the spec's own choice (D29,
93_implementation_defined.md U2). -/
def Obligations.BareXferInHardwareModeIsRefused : Prop :=
  ∀ (s : State) (v : Byte), s.cfg.mode = .hw → exec (.xfer v) s = .refused .xferWithoutBus

/-! ### The transport commands -/

/-- RDREGS: one read frame; what came back during the dummies is RBUF and the result; under the test target it is the bytes of
its array from `a` on; nothing of the target changes; the data-out line ends high in SW mode after at least one dummy. The bound
on the count is the spec's own (D5), and with n = 0 the frame is the address byte alone (D5). -/
def Obligations.RdregsReadsOneFrame : Prop :=
  ∀ (s : State) (a : Addr) (n : Nat), n ≤ s.par.maxCount → s.onMap a n = true →
    ∃ (t : State) (x : Byte) (ds : List Byte), exec (.rdregs a n) s = .next t ∧
      ds.length = n ∧ Sends s t (linkFrame (readExchanges a x ds)) ∧ t.result = .bytes ds ∧ t.work.rbuf = ds ∧
      (∀ m, s.chip.fixture = some m → ∀ k, k < n → ds[k]? = some (m.read (a.toNat + k))) ∧
      KeepsTarget s t ∧ KeepsDecoder s t ∧ (s.cfg.mode = .sw → 0 < n → t.mosi = true)

/-- WRREGS: one write frame with the list in order; under the test target list element k lands at `a + k` and every other byte
reads as before; a conversion starts exactly if a byte with the one-shot bit lands at CR0 (log 10). The bound on the count is
the spec's own (D5). -/
def Obligations.WrregsWritesOneFrame : Prop :=
  ∀ (s : State) (a : Addr) (d : List Byte), d.length ≤ s.par.maxCount → s.onMap a d.length = true → TargetWf s →
    ∃ (t : State) (x : Byte) (rs : List Byte), exec (.wrregs a d) s = .next t ∧
      rs.length = d.length ∧ Sends s t (linkFrame (writeExchanges a x d rs)) ∧ t.result = .nothing ∧
      t.work.rbuf = s.work.rbuf ∧ KeepsDecoder s t ∧
      (∀ b, t.peek b = if a.toNat ≤ b ∧ b < a.toNat + d.length then s.chip.fixture.map (fun _ => d.getD (b - a.toNat) 0#8)
        else s.peek b) ∧
      t.chip.conv = (if a.toNat ≤ s.par.addrCr0.toNat ∧ s.par.addrCr0.toNat < a.toNat + d.length ∧
          d.getD (s.par.addrCr0.toNat - a.toNat) 0#8 &&& s.par.oneShotMask ≠ 0#8 then .converting else s.chip.conv)

/-- RDREG is the first element of RDREGS with count 1: the two leave the same state but for the result. -/
def Obligations.RdregIsRdregsOfOne : Prop :=
  ∀ (s : State) (a : Addr), 1 ≤ s.par.maxCount → s.onMap a 1 = true →
    ∃ (t : State) (d : Byte), exec (.rdregs a 1) s = .next { t with result := .bytes [d] } ∧
      exec (.rdreg a) s = .next { t with result := .byte d }

/-- RDREG: one read frame with one dummy; its payload byte is the result. -/
def Obligations.RdregReadsOneByte : Prop :=
  ∀ (s : State) (a : Addr), s.onMap a 1 = true →
    ∃ (t : State) (x d : Byte), exec (.rdreg a) s = .next t ∧ Sends s t (linkFrame (readExchanges a x [d])) ∧
      t.result = .byte d ∧ t.work.rbuf = [d] ∧ (∀ m, s.chip.fixture = some m → d = m.read a.toNat) ∧
      KeepsTarget s t ∧ KeepsDecoder s t

/-- WRREG: one write frame with one payload byte, the same as WRREGS with the one-element list; under the test target the byte
at `a` becomes `d` and every other byte reads as before. -/
def Obligations.WrregWritesOneByte : Prop :=
  ∀ (s : State) (a : Addr) (d : Byte), s.onMap a 1 = true → TargetWf s →
    ∃ (t : State) (x y : Byte), exec (.wrreg a d) s = .next t ∧ Sends s t (linkFrame (writeExchanges a x [d] [y])) ∧
      t.result = .nothing ∧ t.work.rbuf = s.work.rbuf ∧ KeepsDecoder s t ∧ StoresByte s t a.toNat d ∧
      t.chip.conv = (if a = s.par.addrCr0 ∧ d &&& s.par.oneShotMask ≠ 0#8 then .converting else s.chip.conv) ∧
      (1 ≤ s.par.maxCount → exec (.wrregs a [d]) s = .next t)

/-- The two wire-frame rows: the frame goes out as that of RDREGS or WRREGS does, and the host is handed nothing (the model's
reading of those rows, log 11). -/
def Obligations.WireFramesGoOutAsTheyStand : Prop :=
  (∀ (s : State) (a : Addr) (n : Nat), n ≤ s.par.maxCount → s.onMap a n = true →
    ∃ (t : State) (x : Byte) (ds : List Byte), exec (.rdframe a n) s = .next t ∧ ds.length = n ∧
      Sends s t (linkFrame (readExchanges a x ds)) ∧ t.work.rbuf = ds ∧ t.result = s.result ∧
      (∀ m, s.chip.fixture = some m → ∀ k, k < n → ds[k]? = some (m.read (a.toNat + k))) ∧
      KeepsTarget s t ∧ KeepsDecoder s t) ∧
  (∀ (s : State) (a : Addr) (d : List Byte), d.length ≤ s.par.maxCount → s.onMap a d.length = true → TargetWf s →
    ∃ (t : State) (x : Byte) (rs : List Byte), exec (.wrframe a d) s = .next t ∧ rs.length = d.length ∧
      Sends s t (linkFrame (writeExchanges a x d rs)) ∧ t.work.rbuf = s.work.rbuf ∧ t.result = s.result ∧ KeepsDecoder s t ∧
      (∀ b, t.peek b = if a.toNat ≤ b ∧ b < a.toNat + d.length then s.chip.fixture.map (fun _ => d.getD (b - a.toNat) 0#8)
        else s.peek b) ∧
      t.chip.conv = (if a.toNat ≤ s.par.addrCr0.toNat ∧ s.par.addrCr0.toNat < a.toNat + d.length ∧
          d.getD (s.par.addrCr0.toNat - a.toNat) 0#8 &&& s.par.oneShotMask ≠ 0#8 then .converting else s.chip.conv))

/-- All the events of a frame, of the read frame of RDREGS and of the write frame of WRREGS: in HW mode bus acquisition, select,
transfers, deselect, release; in SW mode select, pulses, deselect, `x` coming back during the address byte and `rs` during the
payload of a write. The order of acquisition against selection is the spec's own (D6), and the order inside a pulse (D8). -/
def Obligations.FramesAreBracketedEventByEvent : Prop :=
  (∀ (s : State) (a : Addr) (n : Nat), n ≤ s.par.maxCount → s.onMap a n = true →
    ∃ (t : State) (x : Byte) (ds : List Byte), exec (.rdregs a n) s = .next t ∧ ds.length = n ∧ t.result = .bytes ds ∧
      (s.cfg.mode = .hw → t.trace = s.trace ++ ([.busBegin s.cfg.busSettings, .cs false, .busXfer (readAddressByte a) x] ++
        ds.map (fun d => .busXfer 0xFF#8 d) ++ [.cs true, .busEnd])) ∧
      (s.cfg.mode = .sw → t.trace = s.trace ++ ([.cs false] ++ exchangeEvents .sw (readAddressByte a) x ++
        ds.flatMap (fun d => exchangeEvents .sw 0xFF#8 d) ++ [.cs true]))) ∧
  (∀ (s : State) (a : Addr) (d : List Byte), d.length ≤ s.par.maxCount → s.onMap a d.length = true →
    ∃ (t : State) (x : Byte) (rs : List Byte), exec (.wrregs a d) s = .next t ∧ rs.length = d.length ∧ t.result = .nothing ∧
      (s.cfg.mode = .hw → t.trace = s.trace ++ ([.busBegin s.cfg.busSettings, .cs false, .busXfer (writeAddressByte a) x] ++
        (d.zip rs).map (fun b => .busXfer b.1 b.2) ++ [.cs true, .busEnd])) ∧
      (s.cfg.mode = .sw → t.trace = s.trace ++ ([.cs false] ++ exchangeEvents .sw (writeAddressByte a) x ++
        (d.zip rs).flatMap (fun b => exchangeEvents .sw b.1 b.2) ++ [.cs true])))

/-- Inside a read frame: at every point `k` of the payload loop PHASE is DATA, chip-select is low, the shared bus is held (HW),
the clock is idle between bytes (SW), BYTEIDX is the index of the byte last moved and RBUF holds the `k` bytes captured; the
rest of the frame follows from there. While the address byte moves PHASE is ADDR and chip-select is low. -/
def Obligations.ReadFrameAdvancesByteByByte : Prop :=
  ∀ (s : State) (a : Addr) (n k : Nat), k ≤ n →
    let s0 := frameBegin (setPhase .addr s)
    let s1 := setPhase .data (xfer (readAddressByte a) s0)
    let u := readPayload k 0 { s1 with work := { s1.work with rbuf := [] } }
    s0.phase = .addr ∧ s0.csN = false ∧ (s.cfg.mode = .hw → s0.busHeld = true) ∧
    u.phase = .data ∧ u.csN = false ∧ (s.cfg.mode = .hw → u.busHeld = true) ∧ (s.cfg.mode = .sw → u.sck = true) ∧
    u.work.rbuf.length = k ∧ (0 < k → u.work.byteIdx + 1 = k) ∧
    readFrame a n s = setPhase .idle (frameEnd (readPayload (n - k) k u))

/-- R86: when a transport command returns, chip-select is inactive, the shared bus is released, the clock is idle and PHASE is
IDLE. -/
def Obligations.TransportCommandsReturnIdle : Prop :=
  ∀ (s t : State) (i : Instr), Quiescent s →
    (∃ v, i = .xfer v) ∨ (∃ a, i = .rdreg a) ∨ (∃ a n, i = .rdregs a n) ∨ (∃ a d, i = .wrreg a d) ∨ (∃ a d, i = .wrregs a d) →
    exec i s = .next t →
      t.csN = true ∧ (s.cfg.mode = .hw → t.busHeld = false) ∧ (s.cfg.mode = .sw → t.sck = true) ∧ t.phase = .idle

/-- A byte count above MAX_COUNT is refused: the spec's own bound (D5, 93_implementation_defined.md U3). RDTC and RDCJ contain an
RDREGS of 3 and of 2 bytes, and are refused where that count is above it; that the refusal comes before the frames of TRIG is the
model's choice (log 14). -/
def Obligations.CountsAboveTheMaximumAreRefused : Prop :=
  (∀ (s : State) (a : Addr) (n : Nat) (d : List Byte), s.par.maxCount < n → d.length = n →
    exec (.rdregs a n) s = .refused (.countAboveMax n) ∧ exec (.rdframe a n) s = .refused (.countAboveMax n) ∧
    exec (.wrregs a d) s = .refused (.countAboveMax n) ∧ exec (.wrframe a d) s = .refused (.countAboveMax n)) ∧
  (∀ s : State, (s.par.maxCount < 3 → exec .rdtc s = .refused (.countAboveMax 3)) ∧
    (s.par.maxCount < 2 → exec .rdcj s = .refused (.countAboveMax 2)))

/-- Without a test target a frame off the map is sent like any other; with one it is refused, whichever transport command or wire
frame asks for it (the spec's own D4, D27). -/
def Obligations.FramesOffTheMapAreSentUnlessTheTestTargetIsThere : Prop :=
  ∀ (s : State) (a : Addr) (n : Nat), n ≤ s.par.maxCount → 15 < a.toNat + (n - 1) →
    (s.chip.fixture = none → ∃ (t : State) (x : Byte) (ds : List Byte), exec (.rdregs a n) s = .next t ∧ ds.length = n ∧
      Sends s t (linkFrame (readExchanges a x ds)) ∧ t.result = .bytes ds) ∧
    (∀ m, s.chip.fixture = some m → exec (.rdregs a n) s = .refused .offTargetMap ∧ exec (.rdframe a n) s = .refused .offTargetMap ∧
      (∀ d : List Byte, d.length = n → exec (.wrregs a d) s = .refused .offTargetMap ∧ exec (.wrframe a d) s = .refused .offTargetMap) ∧
      (15 < a.toNat → exec (.rdreg a) s = .refused .offTargetMap ∧ ∀ b, exec (.wrreg a b) s = .refused .offTargetMap))

/-- For the same command of RDREG, RDREGS, WRREG and WRREGS, and the same received bytes, the two modes have the same results and the same byte-level view, but for
the shared bus's bracket (a property the spec derives from R76 to R79). `xs` is what the environment gives, all of it is taken,
and RDREGS returns it but for the byte received during the address byte; no test target is attached. -/
def Obligations.ModesAgreeAtByteLevel : Prop :=
  ∀ (s h w : State) (i : Instr) (xs : List Byte) (ss ms ms' : LineId) (bits : List Bit) (bytes : List Byte),
    s.chip.fixture = none →
    h = { s with cfg := { s.cfg with lines := .hw }, env := ⟨bits, xs ++ bytes, s.env.drawn⟩ } →
    w = { s with cfg := { s.cfg with lines := .sw ss ms ms' },
                 env := ⟨xs.flatMap (serialise Config.swBitOrder) ++ bits, bytes, s.env.drawn⟩ } →
    (∃ a, i = .rdreg a ∧ xs.length = 2) ∨ (∃ a n, i = .rdregs a n ∧ xs.length = n + 1 ∧ n ≤ s.par.maxCount) ∨
      (∃ a d, i = .wrreg a d ∧ xs.length = 2) ∨ (∃ a d, i = .wrregs a d ∧ xs.length = d.length + 1 ∧ d.length ≤ s.par.maxCount) →
    ∃ (th tw : State) (eh ew : List Event), exec i h = .next th ∧ exec i w = .next tw ∧
      th.trace = s.trace ++ eh ∧ tw.trace = s.trace ++ ew ∧
      (byteTrace eh).filter (fun e => !e.isBus) = byteTrace ew ∧ th.result = tw.result ∧ th.chip = tw.chip ∧
      (∀ a n, i = .rdregs a n → th.result = .bytes (xs.drop 1)) ∧
      th.env = ⟨bits, bytes, s.env.drawn⟩ ∧ tw.env = ⟨bits, bytes, s.env.drawn⟩

/-! ### The decoder -/

/-- R91, R92, R93: the code is put together from the three bytes with the low five bits of the third forced to zero, before or
after the OR; it is read as a 24-bit two's-complement number; shifting it right by five is exact; the result is a 128th of that,
a 4096th of the code. Nothing but DEC_IN, DEC_OUT and the result changes. The command code 0x08 is the spec's own (D3). -/
def Obligations.DectcDecodesTheLinearisedTemperature : Prop :=
  ∀ (s : State) (b0 b1 b2 : Byte),
    (∀ p : Port, p.op = 0x08#5 → p.d = [b0, b1, b2] → decode (.command p) = .ok (.dectc b0 b1 b2)) ∧
    ∃ (raw : Nat) (c q : Int),
      raw = b0.toNat * 65536 + b1.toNat * 256 + b2.toNat / 32 * 32 ∧
      raw = (b0.toNat * 65536 + b1.toNat * 256 + b2.toNat) &&& 0xFFFFE0 ∧
      c = (if raw < 2 ^ 23 then (raw : Int) else (raw : Int) - 2 ^ 24) ∧ c = q * 32 ∧ q = Int.fdiv c 32 ∧
      -262144 ≤ q ∧ q ≤ 262143 ∧
      ∃ x : Rat, x = (q : Rat) / 128 ∧ x = (c : Rat) / 4096 ∧
        exec (.dectc b0 b1 b2) s =
          .next { s with work := { s.work with decIn := BitVec.ofNat 24 raw, decOut := x }, result := .float x }

/-- R94: the code is `(b0 << 8) | b1`, no bit masked, read as a 16-bit two's-complement number; the result is a 256th of it.
Nothing but DEC_IN, DEC_OUT and the result changes. The command code 0x09 is the spec's own (D3). -/
def Obligations.DeccjDecodesTheColdJunctionTemperature : Prop :=
  ∀ (s : State) (b0 b1 : Byte),
    (∀ p : Port, p.op = 0x09#5 → p.d = [b0, b1] → decode (.command p) = .ok (.deccj b0 b1)) ∧
    ∃ (raw : Nat) (v : Int),
      raw = b0.toNat * 256 + b1.toNat ∧ v = (if raw < 2 ^ 15 then (raw : Int) else (raw : Int) - 2 ^ 16) ∧
      ∃ x : Rat, x = (v : Rat) / 256 ∧
        exec (.deccj b0 b1) s =
          .next { s with work := { s.work with decIn := BitVec.ofNat 24 raw, decOut := x }, result := .float x }

/-- A larger masked code gives a larger temperature; two inputs of DECTC give the same result exactly when they differ only in
the five reserved bits; DECCJ is strictly increasing and injective. The cold-junction code is not the driver's defective
composition: the two agree exactly when b1 is 0 (compared for b1 below 8, where that has a value: 93_implementation_defined.md
U7). -/
def Obligations.DecodersAreMonotoneAndInjective : Prop :=
  (∀ a0 a1 a2 b0 b1 b2 : Byte,
    sext 24 (raw24 a0 a1 a2) < sext 24 (raw24 b0 b1 b2) ↔ toFloat (linearUnits a0 a1 a2) 7 < toFloat (linearUnits b0 b1 b2) 7) ∧
  (∀ a0 a1 a2 b0 b1 b2 : Byte,
    toFloat (linearUnits a0 a1 a2) 7 = toFloat (linearUnits b0 b1 b2) 7 ↔
      a0 = b0 ∧ a1 = b1 ∧ a2 &&& 0xE0#8 = b2 &&& 0xE0#8) ∧
  (∀ a0 a1 b0 b1 : Byte, sext 16 (raw16 a0 a1) < sext 16 (raw16 b0 b1) ↔
    toFloat (sext 16 (raw16 a0 a1)) 8 < toFloat (sext 16 (raw16 b0 b1)) 8) ∧
  (∀ a0 a1 b0 b1 : Byte, toFloat (sext 16 (raw16 a0 a1)) 8 = toFloat (sext 16 (raw16 b0 b1)) 8 → a0 = b0 ∧ a1 = b1) ∧
  (∀ b0 b1 : Byte, b1.toNat < 8 → (raw16 b0 b1 = b0.toNat * 2 ^ (8 + b1.toNat) ↔ b1 = 0#8))

/-- The results' ranges and steps: DECTC a multiple of 1/128 from -2048 to 2047.9921875, DECCJ a multiple of 1/256 from -128 to
127.99609375, with both ends reached. -/
def Obligations.DecoderResultsStayInRange : Prop :=
  (∀ (s t : State) (b0 b1 b2 : Byte), exec (.dectc b0 b1 b2) s = .next t →
    ∃ q : Int, t.result = .float (mkRat q 128) ∧ t.work.decOut = mkRat q 128 ∧ -2048 ≤ mkRat q 128 ∧
      mkRat q 128 ≤ mkRat 262143 128) ∧
  (∀ (s t : State) (b0 b1 : Byte), exec (.deccj b0 b1) s = .next t →
    ∃ q : Int, t.result = .float (mkRat q 256) ∧ t.work.decOut = mkRat q 256 ∧ -128 ≤ mkRat q 256 ∧
      mkRat q 256 ≤ mkRat 32767 256) ∧
  toFloat (linearUnits 0x80#8 0x00#8 0x1F#8) 7 = -2048 ∧ toFloat (linearUnits 0x7F#8 0xFF#8 0xFF#8) 7 = mkRat 262143 128 ∧
  toFloat (sext 16 (raw16 0x80#8 0x00#8)) 8 = -128 ∧ toFloat (sext 16 (raw16 0x7F#8 0xFF#8)) 8 = mkRat 32767 256

/-- Every result of the decoder is zero or a normal number of every format FLOAT_FMT may be, so nothing is rounded, and none is a
subnormal (that FLOAT_FMT is open and results are exact is the spec's own D13). -/
def Obligations.DecoderResultsAreExactInEveryFormat : Prop :=
  ∀ f : FloatFmt, f.legal = true →
    (∀ b0 b1 b2 : Byte, Represents f (toFloat (linearUnits b0 b1 b2) 7)) ∧
    (∀ b0 b1 : Byte, Represents f (toFloat (sext 16 (raw16 b0 b1)) 8))

/-! ### The controller -/

/-- BEGIN: chip-select driven inactive, then CFG.TCTYPE written into the low four bits of CR1 by a read-modify-write, the other
bits written back as read; whatever the line levels were before. That BEGIN is these two levels and that read-modify-write is
the spec's own reading (D21); the test target is its own fixture (D27); the clause on the conversion state is the model's
reading (log 10). -/
def Obligations.BeginIdlesTheLinesAndWritesTheType : Prop :=
  ∀ s : State, MacrosOnMap s → TargetWf s →
    ∃ (t : State) (x v y w z : Byte), exec .beginDev s = .next t ∧
      w.toNat = v.toNat / 16 * 16 + s.cfg.tcType.toNat ∧
      Sends s t ([.cs true] ++ linkRmw s.par.addrCr1 x v y w z) ∧
      (s.cfg.mode = .sw → ∃ evs, t.trace = s.trace ++ ([.cs true, .sck true] ++ evs)) ∧
      t.result = .nothing ∧ t.work.rbuf = [v] ∧ KeepsDecoder s t ∧
      (s.chip.fixture.isSome → s.peek s.par.addrCr1.toNat = some v) ∧ StoresByte s t s.par.addrCr1.toNat w ∧
      t.chip.conv = (if s.par.addrCr1 = s.par.addrCr0 ∧ w &&& s.par.oneShotMask ≠ 0#8 then .converting else s.chip.conv)

/-- R103: SETTC reads CR1 in one frame and writes it in a second, the low four bits replaced by the operand and the high four as
read; any operand; CFG.TCTYPE is not updated. The command code 0x11 is the spec's own (D3). -/
def Obligations.SettcReplacesTheLowNibbleOfCr1 : Prop :=
  ∀ (s : State) (ty : BitVec 4), MacrosOnMap s →
    (∀ p : Port, p.op = 0x11#5 → p.t = ty → decode (.command p) = .ok (.settc ty)) ∧
    ∃ (t : State) (x v y w z : Byte), exec (.settc ty) s = .next t ∧
      w.toNat = v.toNat / 16 * 16 + ty.toNat ∧ w = (v &&& 0xF0#8) ||| (ty.setWidth 8 &&& 0x0F#8) ∧
      Sends s t (linkRmw s.par.addrCr1 x v y w z) ∧ t.cfg.tcType = s.cfg.tcType ∧
      t.result = .nothing ∧ t.work.rbuf = [v] ∧ KeepsDecoder s t

/-- R104: GETTC reads CR1 and returns its low four bits, whatever CFG.TCTYPE is. The command code 0x12 is the spec's own (D3). -/
def Obligations.GettcReturnsTheLowNibbleOfCr1 : Prop :=
  ∀ s : State, MacrosOnMap s →
    (∀ p : Port, p.op = 0x12#5 → decode (.command p) = .ok .gettc) ∧
    ∃ (t : State) (x v : Byte) (ty : BitVec 4), exec .gettc s = .next t ∧
      Sends s t (linkFrame (readExchanges s.par.addrCr1 x [v])) ∧ t.result = .tcType ty ∧ ty.toNat = v.toNat % 16 ∧
      t.work.rbuf = [v] ∧ KeepsDecoder s t

/-- R105: SETAVG reads CR1 in one frame and writes it in a second, bits 6 to 4 replaced by the selector, bit 7 and bits 3 to 0 as
read; any selector. The command code 0x13 is the spec's own (D3). -/
def Obligations.SetavgReplacesTheSelectorOfCr1 : Prop :=
  ∀ (s : State) (sel : BitVec 3), MacrosOnMap s →
    (∀ p : Port, p.op = 0x13#5 → p.s = sel → decode (.command p) = .ok (.setavg sel)) ∧
    ∃ (t : State) (x v y w z : Byte), exec (.setavg sel) s = .next t ∧
      w.toNat = v.toNat / 128 * 128 + sel.toNat * 16 + v.toNat % 16 ∧
      w = (v &&& 0x8F#8) ||| ((sel.setWidth 8 <<< 4) &&& 0x70#8) ∧
      Sends s t (linkRmw s.par.addrCr1 x v y w z) ∧ t.result = .nothing ∧ t.work.rbuf = [v] ∧ KeepsDecoder s t

/-- R106: GETAVG reads CR1 and returns 2^S samples for the selector S in bits 6 to 4 up to 4, and 16 for 5 to 7; bit 7 and bits 3
to 0 do not matter. The command code 0x14 is the spec's own (D3). -/
def Obligations.GetavgReturnsTheSampleCount : Prop :=
  ∀ s : State, MacrosOnMap s →
    (∀ p : Port, p.op = 0x14#5 → decode (.command p) = .ok .getavg) ∧
    ∃ (t : State) (x v : Byte), exec .getavg s = .next t ∧
      Sends s t (linkFrame (readExchanges s.par.addrCr1 x [v])) ∧
      t.result = .count (if v.toNat / 16 % 8 ≤ 4 then 2 ^ (v.toNat / 16 % 8) else 16) ∧
      t.work.rbuf = [v] ∧ KeepsDecoder s t

/-- R107: SETNF reads CR0 in one frame and writes it in a second, bit 0 set for 50 Hz and cleared for 60 Hz, bits 7 to 1 as read.
The command code 0x15 is the spec's own (D3). -/
def Obligations.SetnfReplacesTheFilterBitOfCr0 : Prop :=
  ∀ (s : State) (f : Bit), MacrosOnMap s →
    (∀ p : Port, p.op = 0x15#5 → p.f = f → decode (.command p) = .ok (.setnf f)) ∧
    ∃ (t : State) (x v y w z : Byte), exec (.setnf f) s = .next t ∧
      w.toNat = v.toNat / 2 * 2 + (if f then 1 else 0) ∧
      Sends s t (linkRmw s.par.addrCr0 x v y w z) ∧ t.result = .nothing ∧ t.work.rbuf = [v] ∧ KeepsDecoder s t

/-- R108: GETNF reads CR0 and returns its bit 0. The command code 0x16 is the spec's own (D3). -/
def Obligations.GetnfReturnsTheFilterBitOfCr0 : Prop :=
  ∀ s : State, MacrosOnMap s →
    (∀ p : Port, p.op = 0x16#5 → decode (.command p) = .ok .getnf) ∧
    ∃ (t : State) (x v : Byte), exec .getnf s = .next t ∧
      Sends s t (linkFrame (readExchanges s.par.addrCr0 x [v])) ∧ t.result = .bit (decide (v.toNat % 2 = 1)) ∧
      t.work.rbuf = [v] ∧ KeepsDecoder s t

/-- R118: RDFAULT reads the fault status register and returns the byte as it is; no conversion is started. The command code 0x1A
is the spec's own (D3). -/
def Obligations.RdfaultReturnsTheRawByte : Prop :=
  ∀ s : State, MacrosOnMap s →
    (∀ p : Port, p.op = 0x1A#5 → decode (.command p) = .ok .rdfault) ∧
    ∃ (t : State) (x v : Byte), exec .rdfault s = .next t ∧
      Sends s t (linkFrame (readExchanges s.par.addrSr x [v])) ∧ t.result = .byte v ∧
      t.work.rbuf = [v] ∧ t.chip.conv = s.chip.conv ∧ KeepsDecoder s t

/-- The frame of the setters on the chip: under the test target (the spec's own fixture, D27) the byte read is the array's, the
byte written lands in that one register and every other byte reads as before; a conversion starts exactly if the byte written to
CR0 has the one-shot bit (the model's reading, log 10). -/
def Obligations.SettersStoreOneByteUnderTheTestTarget : Prop :=
  ∀ s : State, MacrosOnMap s → TargetWf s →
    (∀ ty : BitVec 4, ∃ (t : State) (v w : Byte), exec (.settc ty) s = .next t ∧ t.work.rbuf = [v] ∧
      w.toNat = v.toNat / 16 * 16 + ty.toNat ∧
      (s.chip.fixture.isSome → s.peek s.par.addrCr1.toNat = some v) ∧ StoresByte s t s.par.addrCr1.toNat w ∧
      t.chip.conv = (if s.par.addrCr1 = s.par.addrCr0 ∧ w &&& s.par.oneShotMask ≠ 0#8 then .converting else s.chip.conv)) ∧
    (∀ sel : BitVec 3, ∃ (t : State) (v w : Byte), exec (.setavg sel) s = .next t ∧ t.work.rbuf = [v] ∧
      w.toNat = v.toNat / 128 * 128 + sel.toNat * 16 + v.toNat % 16 ∧
      (s.chip.fixture.isSome → s.peek s.par.addrCr1.toNat = some v) ∧ StoresByte s t s.par.addrCr1.toNat w ∧
      t.chip.conv = (if s.par.addrCr1 = s.par.addrCr0 ∧ w &&& s.par.oneShotMask ≠ 0#8 then .converting else s.chip.conv)) ∧
    (∀ f : Bit, ∃ (t : State) (v w : Byte), exec (.setnf f) s = .next t ∧ t.work.rbuf = [v] ∧
      w.toNat = v.toNat / 2 * 2 + (if f then 1 else 0) ∧
      (s.chip.fixture.isSome → s.peek s.par.addrCr0.toNat = some v) ∧ StoresByte s t s.par.addrCr0.toNat w ∧
      t.chip.conv = (if w &&& s.par.oneShotMask ≠ 0#8 then .converting else s.chip.conv))

/-- The frame of the getters on the chip: under the test target (the spec's own fixture, D27) the byte read is the array's; every
byte reads as before, and the conversion state is as before. -/
def Obligations.GettersLeaveTheTestTargetAlone : Prop :=
  ∀ s : State, MacrosOnMap s →
    (∃ (t : State) (v : Byte), exec .gettc s = .next t ∧ t.work.rbuf = [v] ∧
      (s.chip.fixture.isSome → s.peek s.par.addrCr1.toNat = some v) ∧ KeepsTarget s t) ∧
    (∃ (t : State) (v : Byte), exec .getavg s = .next t ∧ t.work.rbuf = [v] ∧
      (s.chip.fixture.isSome → s.peek s.par.addrCr1.toNat = some v) ∧ KeepsTarget s t) ∧
    (∃ (t : State) (v : Byte), exec .getnf s = .next t ∧ t.work.rbuf = [v] ∧
      (s.chip.fixture.isSome → s.peek s.par.addrCr0.toNat = some v) ∧ KeepsTarget s t) ∧
    (∃ (t : State) (v : Byte), exec .rdfault s = .next t ∧ t.work.rbuf = [v] ∧
      (s.chip.fixture.isSome → s.peek s.par.addrSr.toNat = some v) ∧ KeepsTarget s t)

/-- The wait in milliseconds: for selector S the samples n are 2^S up to 16, and the wait is 185 + (n - 1) * 40 with the filter bit
set, 155 + (n - 1) * 34 with it clear; the ten values of the table. -/
def Obligations.WaitTimesAreThoseOfTheTable : Prop :=
  (∀ c0 c1 : Byte, waitMs c0 c1 =
    if c0.toNat % 2 = 1 then 185 + (2 ^ min (c1.toNat / 16 % 8) 4 - 1) * 40
    else 155 + (2 ^ min (c1.toNat / 16 % 8) 4 - 1) * 34) ∧
  (∀ c0 c1 : Byte, waitMs c0 c1 ∈ [155, 189, 257, 393, 665, 185, 225, 305, 465, 785]) ∧
  (∀ w ∈ [155, 189, 257, 393, 665, 185, 225, 305, 465, 785], ∃ c0 c1 : Byte, waitMs c0 c1 = w)

/-- TRIG: read CR0, read CR1, write CR0 with the auto-convert bit cleared and the one-shot bit set and every other bit as read, then
ask for exactly the computed wait; when it returns the conversion's wait has elapsed. The position of the CR1 read is the spec's
own (D17); the test target is its own fixture (D27); the conversion state is the model's reading (log 10). -/
def Obligations.TrigStartsAConversionAndWaits : Prop :=
  ∀ s : State, MacrosOnMap s → TargetWf s →
    ∃ (t : State) (x0 c0 x1 c1 x2 w y : Byte), exec .trig s = .next t ∧
      w = (c0 &&& ~~~s.par.autoMask) ||| s.par.oneShotMask ∧
      Sends s t (linkTrigger s.par x0 c0 x1 c1 x2 w y (waitMs c0 c1)) ∧ t.result = .nothing ∧ t.work.rbuf = [c1] ∧
      (s.chip.fixture.isSome → s.peek s.par.addrCr0.toNat = some c0 ∧ s.peek s.par.addrCr1.toNat = some c1) ∧
      StoresByte s t s.par.addrCr0.toNat w ∧ t.chip.conv = .idle ∧ KeepsDecoder s t

/-- RDTC: TRIG, then one read frame of three bytes at ADDR_LTC, then DECTC of them in order; with MAX_COUNT below 3 it is refused
(CountsAboveTheMaximumAreRefused). The order of TRIG's frames is the
spec's own (D17); the test target is its own fixture (D27); that the conversion is idle afterwards is the model's reading (log 10). -/
def Obligations.RdtcTriggersReadsAndDecodes : Prop :=
  ∀ s : State, 3 ≤ s.par.maxCount → MacrosOnMap s → TargetWf s →
    ∃ (t : State) (x0 c0 x1 c1 x2 w y x3 b0 b1 b2 : Byte) (raw : Nat) (x : Rat), exec .rdtc s = .next t ∧
      w = (c0 &&& ~~~s.par.autoMask) ||| s.par.oneShotMask ∧
      Sends s t (linkTrigger s.par x0 c0 x1 c1 x2 w y (waitMs c0 c1) ++
        linkFrame (readExchanges s.par.addrLtc x3 [b0, b1, b2])) ∧
      raw = b0.toNat * 65536 + b1.toNat * 256 + b2.toNat / 32 * 32 ∧
      x = (if raw < 2 ^ 23 then (raw : Rat) else (raw : Rat) - 2 ^ 24) / 4096 ∧
      t.result = .float x ∧ t.work.decOut = x ∧ t.work.decIn = BitVec.ofNat 24 raw ∧ t.work.rbuf = [b0, b1, b2] ∧
      (s.chip.fixture.isSome → s.peek s.par.addrCr0.toNat = some c0 ∧ s.peek s.par.addrCr1.toNat = some c1 ∧
        t.peek s.par.addrLtc.toNat = some b0 ∧ t.peek (s.par.addrLtc.toNat + 1) = some b1 ∧
        t.peek (s.par.addrLtc.toNat + 2) = some b2) ∧
      StoresByte s t s.par.addrCr0.toNat w ∧ t.chip.conv = .idle

/-- RDCJ: TRIG, then one read frame of two bytes at ADDR_CJT, then DECCJ of them in order; with MAX_COUNT below 2 it is refused
(CountsAboveTheMaximumAreRefused). The order of TRIG's frames is the spec's
own (D17); the test target is its own fixture (D27); that the conversion is idle afterwards is the model's reading (log 10). -/
def Obligations.RdcjTriggersReadsAndDecodes : Prop :=
  ∀ s : State, 2 ≤ s.par.maxCount → MacrosOnMap s → TargetWf s →
    ∃ (t : State) (x0 c0 x1 c1 x2 w y x3 b0 b1 : Byte) (raw : Nat) (x : Rat), exec .rdcj s = .next t ∧
      w = (c0 &&& ~~~s.par.autoMask) ||| s.par.oneShotMask ∧
      Sends s t (linkTrigger s.par x0 c0 x1 c1 x2 w y (waitMs c0 c1) ++
        linkFrame (readExchanges s.par.addrCjt x3 [b0, b1])) ∧
      raw = b0.toNat * 256 + b1.toNat ∧ x = (if raw < 2 ^ 15 then (raw : Rat) else (raw : Rat) - 2 ^ 16) / 256 ∧
      t.result = .float x ∧ t.work.decOut = x ∧ t.work.decIn = BitVec.ofNat 24 raw ∧ t.work.rbuf = [b0, b1] ∧
      (s.chip.fixture.isSome → s.peek s.par.addrCr0.toNat = some c0 ∧ s.peek s.par.addrCr1.toNat = some c1 ∧
        t.peek s.par.addrCjt.toNat = some b0 ∧ t.peek (s.par.addrCjt.toNat + 1) = some b1) ∧
      StoresByte s t s.par.addrCr0.toNat w ∧ t.chip.conv = .idle

/-- The document's round trips, under the test target: what SETTC, SETAVG and SETNF set, GETTC, GETAVG and GETNF return, from every
register contents, and neither field of CR1 disturbs the other (properties the spec derives from R103 to R108). -/
def Obligations.SettersAndGettersRoundTrip : Prop :=
  ∀ (s : State) (m : Memory) (v0 v1 : Byte), s.chip.fixture = some m → m.wf = true → s.par.legal = true →
    m.read s.par.addrCr0.toNat = v0 → m.read s.par.addrCr1.toNat = v1 →
    (∀ sel : BitVec 3, ∃ t u, exec (.setavg sel) s = .next t ∧ exec .getavg t = .next u ∧
      u.result = .count (if sel.toNat ≤ 4 then 2 ^ sel.toNat else 16)) ∧
    (∀ ty : BitVec 4, ∃ t u, exec (.settc ty) s = .next t ∧ exec .gettc t = .next u ∧ u.result = .tcType ty ∧
      ∃ w : Byte, u.peek s.par.addrCr1.toNat = some w ∧ w &&& 0xF0#8 = v1 &&& 0xF0#8) ∧
    (∀ f : Bit, ∃ t u, exec (.setnf f) s = .next t ∧ exec .getnf t = .next u ∧ u.result = .bit f ∧
      ∃ w : Byte, u.peek s.par.addrCr0.toNat = some w ∧ w &&& 0xFE#8 = v0 &&& 0xFE#8) ∧
    (∀ (sel : BitVec 3) (ty : BitVec 4), ∃ t u t' u', exec (.settc ty) s = .next t ∧ exec (.setavg sel) t = .next u ∧
      exec (.setavg sel) s = .next t' ∧ exec (.settc ty) t' = .next u' ∧
      u.peek s.par.addrCr1.toNat = u'.peek s.par.addrCr1.toNat ∧
      ∃ w : Byte, u.peek s.par.addrCr1.toNat = some w ∧ w.toNat = v1.toNat / 128 * 128 + sel.toNat * 16 + ty.toNat)

/-- On a dead bus in HW mode, no test target attached: RDTC, RDCJ, RDFAULT, GETAVG, GETTC and GETNF complete and return what the
bytes come to, stuck high and stuck low, the two readings after the wait those bytes give; SETAVG completes and writes back what it
read with the selector replaced (properties the spec derives, its vectors V70 to V76). RDTC and RDCJ run where MAX_COUNT admits the
bytes they read. -/
def Obligations.DeadBusReturnsGarbageWithoutASign : Prop :=
  ∀ (s : State) (n : Nat), s.cfg.mode = .hw → s.chip.fixture = none → 10 ≤ n →
    (s.env.busIn = List.replicate n 0xFF#8 →
      (3 ≤ s.par.maxCount → ∃ t evs, exec .rdtc s = .next t ∧ t.result = .float (mkRat (-1) 128) ∧ t.trace = s.trace ++ evs ∧ delays evs = [785]) ∧
      (2 ≤ s.par.maxCount → ∃ t evs, exec .rdcj s = .next t ∧ t.result = .float (mkRat (-1) 256) ∧ t.trace = s.trace ++ evs ∧ delays evs = [785]) ∧
      (∃ t, exec .rdfault s = .next t ∧ t.result = .byte 0xFF#8) ∧
      (∃ t, exec .getavg s = .next t ∧ t.result = .count 16) ∧
      (∃ t, exec .gettc s = .next t ∧ t.result = .tcType 0xF#4) ∧
      (∃ t, exec .getnf s = .next t ∧ t.result = .bit true) ∧
      (∀ sel : BitVec 3, ∃ (t : State) (x y w z : Byte), exec (.setavg sel) s = .next t ∧ t.result = .nothing ∧
        w.toNat = 0x8F + sel.toNat * 16 ∧ Sends s t (linkRmw s.par.addrCr1 x 0xFF#8 y w z))) ∧
    (s.env.busIn = List.replicate n 0x00#8 →
      (3 ≤ s.par.maxCount → ∃ t evs, exec .rdtc s = .next t ∧ t.result = .float 0 ∧ t.trace = s.trace ++ evs ∧ delays evs = [155]) ∧
      (2 ≤ s.par.maxCount → ∃ t evs, exec .rdcj s = .next t ∧ t.result = .float 0 ∧ t.trace = s.trace ++ evs ∧ delays evs = [155]) ∧
      (∃ t, exec .rdfault s = .next t ∧ t.result = .byte 0x00#8) ∧
      (∃ t, exec .getavg s = .next t ∧ t.result = .count 1) ∧
      (∃ t, exec .gettc s = .next t ∧ t.result = .tcType 0x0#4) ∧
      (∃ t, exec .getnf s = .next t ∧ t.result = .bit false) ∧
      (∀ sel : BitVec 3, ∃ (t : State) (x y w z : Byte), exec (.setavg sel) s = .next t ∧ t.result = .nothing ∧
        w.toNat = sel.toNat * 16 ∧ Sends s t (linkRmw s.par.addrCr1 x 0x00#8 y w z)))

/-! ### The whole machine -/

/-- R15: no step writes any field of CFG. -/
def Obligations.NoStepWritesTheConfiguration : Prop :=
  ∀ s t : State, step s = .next t → t.cfg = s.cfg

/-- The exit invariant with the canonical form of the test target's array and the bounds of the working registers (BITCNT at most 8,
RBUF at most MAX_COUNT bytes: the registers and the bound are the spec's own, D1, D5): every step keeps it, from every state that
has it. -/
def Obligations.EveryStepKeepsTheInvariant : Prop :=
  ∀ s t : State, Inv s → step s = .next t → Inv t

/-- The state after reset has the invariant (the launch levels of the lines are the spec's premise, log 5; that RBUF is empty is the
model's choice, log 6). -/
def Obligations.ResetHasTheInvariant : Prop := Inv State.reset

/-- What R36 and R133 state of reset: PHASE IDLE, BYTEIDX and BITCNT 0, BUS_HELD 0, the constant bus settings, and nothing sent. -/
def Obligations.ResetIsIdleAndSilent : Prop :=
  State.reset.phase = .idle ∧ State.reset.work.byteIdx = 0 ∧ State.reset.work.bitCnt = 0 ∧ State.reset.busHeld = false ∧
  State.reset.cfg.busSettings = ⟨500000, .msbFirst, true, true⟩ ∧ State.reset.trace = [] ∧ step State.reset = .next State.reset

/-- Chip-select is low exactly during frames and the shared bus is taken exactly around them, whatever the command and the state:
the events of every command but XFER form complete frames; XFER emits pin events only. That the bus is taken before chip-select
falls and released after it rises is the spec's own order (D6); that BEGIN drives chip-select, and in SW mode the clock, outside a
frame is the spec's own reading (D21). -/
def Obligations.EveryCommandsEventsAreWellBracketed : Prop :=
  (∀ (i : Instr) (s t : State), (∀ v, i ≠ .xfer v) → exec i s = .next t →
    ∃ evs, t.trace = s.trace ++ evs ∧ WellBracketed s.cfg.mode evs) ∧
  (∀ (v : Byte) (s t : State), exec (.xfer v) s = .next t →
    ∃ evs, t.trace = s.trace ++ evs ∧ ∀ e ∈ evs, (∃ l, e = .sck l) ∨ (∃ l, e = .mosi l) ∨ (∃ l, e = .miso l))

/-- No command reads a value another command left in a working register, in RESULT or on the data-out line: started with other
values there, it does and returns the same (that these registers exist is the spec's own D1). -/
def Obligations.WorkingRegistersAreDeadBetweenCommands : Prop :=
  ∀ (i : Instr) (s : State) (w : Work) (r : Result) (l : Bit),
    (∀ t, exec i s = .next t →
      ∃ t', exec i { s with work := w, result := r, mosi := l } = .next t' ∧
        t'.trace = t.trace ∧ t'.chip = t.chip ∧ t'.env = t.env ∧ t'.csN = t.csN ∧ t'.sck = t.sck ∧ t'.busHeld = t.busHeld ∧
        t'.phase = t.phase ∧ t'.cfg = t.cfg ∧ t'.par = t.par ∧ t'.host = t.host ∧
        ((∀ a n, i ≠ .rdframe a n) → (∀ a d, i ≠ .wrframe a d) → t'.result = t.result)) ∧
    (∀ e, exec i s = .refused e → exec i { s with work := w, result := r, mosi := l } = .refused e)

/-- The delay primitive is asked by TRIG, RDTC and RDCJ only, once each, for one of the ten values of the table. -/
def Obligations.OnlyConversionsAskForADelay : Prop :=
  ∀ (i : Instr) (s t : State), exec i s = .next t →
    ∃ evs, t.trace = s.trace ++ evs ∧
      (if i = .trig ∨ i = .rdtc ∨ i = .rdcj then
        ∃ w ∈ [155, 189, 257, 393, 665, 185, 225, 305, 465, 785], delays evs = [w]
      else delays evs = [])
end

