-- ==== Sys2Proof/Laws/State.lean ====
section
/-! SUPPORT. One lemma for every field of State under every named update, and for the fields of the chip. -/

namespace Sys2Proof.Machine

variable (s : State)

@[simp] theorem emit_cfg (e : Event) : (emit e s).cfg = s.cfg := rfl
@[simp] theorem emit_par (e : Event) : (emit e s).par = s.par := rfl
@[simp] theorem emit_phase (e : Event) : (emit e s).phase = s.phase := rfl
@[simp] theorem emit_work (e : Event) : (emit e s).work = s.work := rfl
@[simp] theorem emit_result (e : Event) : (emit e s).result = s.result := rfl
@[simp] theorem emit_busHeld (e : Event) : (emit e s).busHeld = s.busHeld := rfl
@[simp] theorem emit_csN (e : Event) : (emit e s).csN = s.csN := rfl
@[simp] theorem emit_sck (e : Event) : (emit e s).sck = s.sck := rfl
@[simp] theorem emit_mosi (e : Event) : (emit e s).mosi = s.mosi := rfl
@[simp] theorem emit_chip (e : Event) : (emit e s).chip = s.chip := rfl
@[simp] theorem emit_env (e : Event) : (emit e s).env = s.env := rfl
@[simp] theorem emit_trace (e : Event) : (emit e s).trace = s.trace ++ [e] := rfl
@[simp] theorem emit_host (e : Event) : (emit e s).host = s.host := rfl

@[simp] theorem driveCs_cfg (l : Bit) : (driveCs l s).cfg = s.cfg := rfl
@[simp] theorem driveCs_par (l : Bit) : (driveCs l s).par = s.par := rfl
@[simp] theorem driveCs_phase (l : Bit) : (driveCs l s).phase = s.phase := rfl
@[simp] theorem driveCs_work (l : Bit) : (driveCs l s).work = s.work := rfl
@[simp] theorem driveCs_result (l : Bit) : (driveCs l s).result = s.result := rfl
@[simp] theorem driveCs_busHeld (l : Bit) : (driveCs l s).busHeld = s.busHeld := rfl
@[simp] theorem driveCs_csN (l : Bit) : (driveCs l s).csN = l := rfl
@[simp] theorem driveCs_sck (l : Bit) : (driveCs l s).sck = s.sck := rfl
@[simp] theorem driveCs_mosi (l : Bit) : (driveCs l s).mosi = s.mosi := rfl
@[simp] theorem driveCs_chip (l : Bit) : (driveCs l s).chip = s.chip.select l := rfl
@[simp] theorem driveCs_env (l : Bit) : (driveCs l s).env = s.env := rfl
@[simp] theorem driveCs_trace (l : Bit) : (driveCs l s).trace = s.trace ++ [.cs l] := rfl
@[simp] theorem driveCs_host (l : Bit) : (driveCs l s).host = s.host := rfl

@[simp] theorem driveSck_cfg (l : Bit) : (driveSck l s).cfg = s.cfg := rfl
@[simp] theorem driveSck_par (l : Bit) : (driveSck l s).par = s.par := rfl
@[simp] theorem driveSck_phase (l : Bit) : (driveSck l s).phase = s.phase := rfl
@[simp] theorem driveSck_work (l : Bit) : (driveSck l s).work = s.work := rfl
@[simp] theorem driveSck_result (l : Bit) : (driveSck l s).result = s.result := rfl
@[simp] theorem driveSck_busHeld (l : Bit) : (driveSck l s).busHeld = s.busHeld := rfl
@[simp] theorem driveSck_csN (l : Bit) : (driveSck l s).csN = s.csN := rfl
@[simp] theorem driveSck_sck (l : Bit) : (driveSck l s).sck = l := rfl
@[simp] theorem driveSck_mosi (l : Bit) : (driveSck l s).mosi = s.mosi := rfl
@[simp] theorem driveSck_chip (l : Bit) : (driveSck l s).chip = s.chip := rfl
@[simp] theorem driveSck_env (l : Bit) : (driveSck l s).env = s.env := rfl
@[simp] theorem driveSck_trace (l : Bit) : (driveSck l s).trace = s.trace ++ [.sck l] := rfl
@[simp] theorem driveSck_host (l : Bit) : (driveSck l s).host = s.host := rfl

@[simp] theorem driveMosi_cfg (l : Bit) : (driveMosi l s).cfg = s.cfg := rfl
@[simp] theorem driveMosi_par (l : Bit) : (driveMosi l s).par = s.par := rfl
@[simp] theorem driveMosi_phase (l : Bit) : (driveMosi l s).phase = s.phase := rfl
@[simp] theorem driveMosi_work (l : Bit) : (driveMosi l s).work = s.work := rfl
@[simp] theorem driveMosi_result (l : Bit) : (driveMosi l s).result = s.result := rfl
@[simp] theorem driveMosi_busHeld (l : Bit) : (driveMosi l s).busHeld = s.busHeld := rfl
@[simp] theorem driveMosi_csN (l : Bit) : (driveMosi l s).csN = s.csN := rfl
@[simp] theorem driveMosi_sck (l : Bit) : (driveMosi l s).sck = s.sck := rfl
@[simp] theorem driveMosi_mosi (l : Bit) : (driveMosi l s).mosi = l := rfl
@[simp] theorem driveMosi_chip (l : Bit) : (driveMosi l s).chip = s.chip := rfl
@[simp] theorem driveMosi_env (l : Bit) : (driveMosi l s).env = s.env := rfl
@[simp] theorem driveMosi_trace (l : Bit) : (driveMosi l s).trace = s.trace ++ [.mosi l] := rfl
@[simp] theorem driveMosi_host (l : Bit) : (driveMosi l s).host = s.host := rfl

@[simp] theorem setPhase_cfg (p : Phase) : (setPhase p s).cfg = s.cfg := rfl
@[simp] theorem setPhase_par (p : Phase) : (setPhase p s).par = s.par := rfl
@[simp] theorem setPhase_phase (p : Phase) : (setPhase p s).phase = p := rfl
@[simp] theorem setPhase_work (p : Phase) : (setPhase p s).work = s.work := rfl
@[simp] theorem setPhase_result (p : Phase) : (setPhase p s).result = s.result := rfl
@[simp] theorem setPhase_busHeld (p : Phase) : (setPhase p s).busHeld = s.busHeld := rfl
@[simp] theorem setPhase_csN (p : Phase) : (setPhase p s).csN = s.csN := rfl
@[simp] theorem setPhase_sck (p : Phase) : (setPhase p s).sck = s.sck := rfl
@[simp] theorem setPhase_mosi (p : Phase) : (setPhase p s).mosi = s.mosi := rfl
@[simp] theorem setPhase_chip (p : Phase) : (setPhase p s).chip = s.chip := rfl
@[simp] theorem setPhase_env (p : Phase) : (setPhase p s).env = s.env := rfl
@[simp] theorem setPhase_trace (p : Phase) : (setPhase p s).trace = s.trace := rfl
@[simp] theorem setPhase_host (p : Phase) : (setPhase p s).host = s.host := rfl

@[simp] theorem giveResult_cfg (r : Result) : (giveResult r s).cfg = s.cfg := rfl
@[simp] theorem giveResult_par (r : Result) : (giveResult r s).par = s.par := rfl
@[simp] theorem giveResult_phase (r : Result) : (giveResult r s).phase = s.phase := rfl
@[simp] theorem giveResult_work (r : Result) : (giveResult r s).work = s.work := rfl
@[simp] theorem giveResult_result (r : Result) : (giveResult r s).result = r := rfl
@[simp] theorem giveResult_busHeld (r : Result) : (giveResult r s).busHeld = s.busHeld := rfl
@[simp] theorem giveResult_csN (r : Result) : (giveResult r s).csN = s.csN := rfl
@[simp] theorem giveResult_sck (r : Result) : (giveResult r s).sck = s.sck := rfl
@[simp] theorem giveResult_mosi (r : Result) : (giveResult r s).mosi = s.mosi := rfl
@[simp] theorem giveResult_chip (r : Result) : (giveResult r s).chip = s.chip := rfl
@[simp] theorem giveResult_env (r : Result) : (giveResult r s).env = s.env := rfl
@[simp] theorem giveResult_trace (r : Result) : (giveResult r s).trace = s.trace := rfl
@[simp] theorem giveResult_host (r : Result) : (giveResult r s).host = s.host := rfl

@[simp] theorem delay_cfg (w : Nat) : (delay w s).cfg = s.cfg := rfl
@[simp] theorem delay_par (w : Nat) : (delay w s).par = s.par := rfl
@[simp] theorem delay_phase (w : Nat) : (delay w s).phase = s.phase := rfl
@[simp] theorem delay_work (w : Nat) : (delay w s).work = s.work := rfl
@[simp] theorem delay_result (w : Nat) : (delay w s).result = s.result := rfl
@[simp] theorem delay_busHeld (w : Nat) : (delay w s).busHeld = s.busHeld := rfl
@[simp] theorem delay_csN (w : Nat) : (delay w s).csN = s.csN := rfl
@[simp] theorem delay_sck (w : Nat) : (delay w s).sck = s.sck := rfl
@[simp] theorem delay_mosi (w : Nat) : (delay w s).mosi = s.mosi := rfl
@[simp] theorem delay_chip (w : Nat) : (delay w s).chip = { s.chip with conv := .idle } := rfl
@[simp] theorem delay_env (w : Nat) : (delay w s).env = s.env := rfl
@[simp] theorem delay_trace (w : Nat) : (delay w s).trace = s.trace ++ [.delay w] := rfl
@[simp] theorem delay_host (w : Nat) : (delay w s).host = s.host := rfl

@[simp] theorem select_rx (c : Chip) (l : Bit) : (c.select l).rx = if l then .idle else .address := rfl
@[simp] theorem select_conv (c : Chip) (l : Bit) : (c.select l).conv = c.conv := rfl
@[simp] theorem select_fixture (c : Chip) (l : Bit) : (c.select l).fixture = c.fixture := rfl

end Sys2Proof.Machine
end

