-- ==== Sys2Proof/Laws/Wire.lean ====
section
/-! SUPPORT. What the byte exchange and the frames do, said once: one equation for each, whose right side names every field
that changes. What is received is a function of the environment and the chip alone. -/

namespace Sys2Proof.Machine

/-! ### What is received -/

/-- The samples of the pulses `ts`. -/
def sampleAll (reply : Option Byte) (ts : List Nat) (e : Env) : List Bit × Env :=
  match ts with
  | [] => ([], e)
  | t :: rest =>
    let m := sampleBit reply t e
    let r := sampleAll reply rest m.2
    (m.1 :: r.1, r.2)

/-- The byte an exchange receives, and the environment after it. -/
def received (m : Mode) (reply : Option Byte) (e : Env) : Byte × Env :=
  match m with
  | .hw => busReply reply e
  | .sw =>
    let r := sampleAll reply bitTimes e
    (deserialise Config.swBitOrder r.1, r.2)

/-- The chip's answer to payload byte `k` of a read frame at `a`, where it is settled. -/
def payloadReply (f : Option Memory) (a k : Nat) : Option Byte :=
  match f with
  | some m => if a + k < Config.nReg then some (m.read (a + k)) else none
  | none => none

/-- The payload of a read frame: `n` bytes from index `k` on. -/
def payloadReceived (m : Mode) (f : Option Memory) (a n k : Nat) (e : Env) : List Byte × Env :=
  match n with
  | 0 => ([], e)
  | n + 1 =>
    let r := received m (payloadReply f a k) e
    let rs := payloadReceived m f a n (k + 1) r.2
    (r.1 :: rs.1, rs.2)

/-- What comes back while `d` is sent in a write frame: draws, one for each byte. -/
def dropped (m : Mode) (d : List Byte) (e : Env) : List Byte × Env :=
  match d with
  | [] => ([], e)
  | _ :: rest =>
    let r := received m none e
    let rs := dropped m rest r.2
    (r.1 :: rs.1, rs.2)

/-! ### Bits and bytes -/

@[simp] theorem serialBit_lsb (b : Byte) (t : Nat) : serialBit Config.swBitOrder b t = b.getLsbD t := rfl

theorem shiftIn_lsb (r : Byte) (m : Bit) :
    shiftIn Config.swBitOrder r m = (r >>> 1) ||| (if m then 0x80#8 else 0x00#8) := rfl

/-- Bit `t` of the byte eight samples assemble to is sample `t` (40_transport.md R79). -/
theorem serialBit_deserialise (a b c d e f g h : Bit) :
    bitTimes.map (fun t => serialBit Config.swBitOrder (deserialise Config.swBitOrder [a, b, c, d, e, f, g, h]) t)
      = [a, b, c, d, e, f, g, h] := by
  cases a <;> cases b <;> cases c <;> cases d <;> cases e <;> cases f <;> cases g <;> cases h <;> rfl

theorem deserialise_serialise (b : Byte) : deserialise Config.swBitOrder (serialise Config.swBitOrder b) = b := by
  revert b; decide

theorem sampleAll_length (reply : Option Byte) (ts : List Nat) (e : Env) :
    (sampleAll reply ts e).1.length = ts.length := by
  induction ts generalizing e with
  | nil => rfl
  | cons t rest ih => simp [sampleAll, ih]

/-- Where the chip's reply is settled every sample is a bit of it and nothing is drawn. -/
theorem sampleAll_some (b : Byte) (ts : List Nat) (e : Env) :
    sampleAll (some b) ts e = (ts.map (serialBit Config.swBitOrder b), e) := by
  induction ts with
  | nil => rfl
  | cons t rest ih => simp [sampleAll, sampleBit, ih]

@[simp] theorem received_some (m : Mode) (b : Byte) (e : Env) : received m (some b) e = (b, e) := by
  cases m with
  | hw => rfl
  | sw =>
    simp only [received, sampleAll_some]
    exact Prod.ext (deserialise_serialise b) rfl

/-- The bits of a byte received in SW mode are the eight samples. -/
theorem serialBits_received (reply : Option Byte) (e : Env) :
    bitTimes.map (fun t => serialBit Config.swBitOrder (received .sw reply e).1 t) = (sampleAll reply bitTimes e).1 := by
  have hlen := sampleAll_length reply bitTimes e
  match h : (sampleAll reply bitTimes e).1, hlen with
  | [a, b, c, d, e', f, g, i], _ => simpa only [received, h] using serialBit_deserialise a b c d e' f g i

/-! ### One exchange -/

/-- The events of the pulses `ts` sending `v`, with the samples `ms`. -/
def pulseEvents (v : Byte) : List Nat → List Bit → List Event
  | t :: ts, m :: ms =>
    .sck false :: .mosi (serialBit Config.swBitOrder v t) :: .sck true :: .miso m :: pulseEvents v ts ms
  | _, _ => []

theorem pulse_eq (reply : Option Byte) (s : State) (t : Nat) :
    pulse reply s t =
      { s with
        work := { s.work with
          bitCnt := t, rxsr := shiftIn Config.swBitOrder s.work.rxsr (sampleBit reply t s.env).1 }
        sck := true
        mosi := serialBit Config.swBitOrder s.work.txsr t
        env := (sampleBit reply t s.env).2
        trace := s.trace ++ pulseEvents s.work.txsr [t] [(sampleBit reply t s.env).1] } := by
  simp [pulse, driveSck, driveMosi, emit, pulseEvents]

theorem pulses_eq (reply : Option Byte) (ts : List Nat) (s : State) :
    ts.foldl (pulse reply) s =
      { s with
        work := { s.work with
          bitCnt := ts.foldl (fun _ t => t) s.work.bitCnt
          rxsr := (sampleAll reply ts s.env).1.foldl (shiftIn Config.swBitOrder) s.work.rxsr }
        sck := ts.foldl (fun _ _ => true) s.sck
        mosi := ts.foldl (fun _ t => serialBit Config.swBitOrder s.work.txsr t) s.mosi
        env := (sampleAll reply ts s.env).2
        trace := s.trace ++ pulseEvents s.work.txsr ts (sampleAll reply ts s.env).1 } := by
  induction ts generalizing s with
  | nil => simp [sampleAll, pulseEvents]
  | cons t rest ih => rw [List.foldl_cons, ih, pulse_eq]; simp [sampleAll, pulseEvents]

theorem pulseEvents_eq (v : Byte) (ts : List Nat) (f : Nat → Bit) :
    pulseEvents v ts (ts.map f) =
      ts.flatMap fun t => [.sck false, .mosi (serialBit Config.swBitOrder v t), .sck true, .miso (f t)] := by
  induction ts with
  | nil => rfl
  | cons t rest ih => simp [pulseEvents, ih]

/-- BITCNT after an exchange: eight pulses done, in SW mode. -/
def bitsAfter (m : Mode) (n : Nat) : Nat := match m with | .hw => n | .sw => Config.bitsPerByte

/-- The working registers after an exchange. -/
def exchanged (m : Mode) (v r : Byte) (w : Work) : Work := { w with txsr := v, rxsr := r, bitCnt := bitsAfter m w.bitCnt }

/-- The clock after an exchange: idle in SW mode. -/
def clockAfter (m : Mode) (l : Bit) : Bit := match m with | .hw => l | .sw => true

/-- The data-out line after an exchange: the last bit sent, in SW mode. -/
def dataAfter (m : Mode) (v : Byte) (l : Bit) : Bit := match m with | .hw => l | .sw => v.getLsbD 7

/-- All that one exchange does (40_transport.md R76, R77, R79). -/
theorem xfer_eq (v : Byte) (s : State) :
    xfer v s =
      { s with
        work := exchanged s.cfg.mode v (received s.cfg.mode s.chip.reply s.env).1 s.work
        sck := clockAfter s.cfg.mode s.sck
        mosi := dataAfter s.cfg.mode v s.mosi
        env := (received s.cfg.mode s.chip.reply s.env).2
        chip := s.chip.accept s.par v
        trace := s.trace ++ exchangeEvents s.cfg.mode v (received s.cfg.mode s.chip.reply s.env).1 } := by
  cases hm : s.cfg.mode with
  | hw => simp [xfer, hm, xferHw, received, exchanged, bitsAfter, emit, exchangeEvents, clockAfter, dataAfter]
  | sw =>
    have hev : exchangeEvents .sw v (received .sw s.chip.reply s.env).1 =
        pulseEvents v bitTimes (sampleAll s.chip.reply bitTimes s.env).1 := by
      rw [← serialBits_received, pulseEvents_eq]; rfl
    rw [hev]
    simp only [xfer, hm, xferSw, pulses_eq]
    rfl

/-! ### The payload loops -/

/-- The chip after the `n` dummies of a read frame. -/
theorem reply_payload (c : Chip) (a k : Nat) (h : c.rx = .payload false a k) :
    c.reply = payloadReply c.fixture a k := by
  unfold Chip.reply payloadReply
  rw [h]
  cases c.fixture <;> rfl

/-- All that the payload loop of a read frame does; what it leaves in TXSR, RXSR, BITCNT and BYTEIDX is dead (R20). -/
theorem readPayload_eq (n k a : Nat) (s : State) (h : s.chip.rx = .payload false a k) :
    ∃ w : Work, readPayload n k s =
      { s with
        work := w
        sck := if n = 0 then s.sck else clockAfter s.cfg.mode s.sck
        mosi := if n = 0 then s.mosi else dataAfter s.cfg.mode Config.dummy s.mosi
        env := (payloadReceived s.cfg.mode s.chip.fixture a n k s.env).2
        chip := { s.chip with rx := .payload false a (k + n) }
        trace := s.trace ++ (payloadReceived s.cfg.mode s.chip.fixture a n k s.env).1.flatMap
          (fun r => exchangeEvents s.cfg.mode Config.dummy r) } ∧
      w.rbuf = s.work.rbuf ++ (payloadReceived s.cfg.mode s.chip.fixture a n k s.env).1 ∧
      w.decIn = s.work.decIn ∧ w.decOut = s.work.decOut ∧
      w.bitCnt = (if n = 0 then s.work.bitCnt else bitsAfter s.cfg.mode s.work.bitCnt) := by
  induction n generalizing k s with
  | zero =>
    refine ⟨s.work, ?_, by simp [payloadReceived], rfl, rfl, rfl⟩
    cases s with
    | mk cfg par phase work result busHeld csN sck mosi chip env trace host =>
      cases chip
      simp only at h
      simp [readPayload, payloadReceived, h]
  | succ n ih =>
    have hr : s.chip.reply = payloadReply s.chip.fixture a k := reply_payload _ _ _ h
    have hacc : s.chip.accept s.par Config.dummy = { s.chip with rx := .payload false a (k + 1) } := by
      simp [Chip.accept, h]
    obtain ⟨w, heq, hb, hi, ho, hc⟩ := ih (k + 1) (readByte k s) (by simp [readByte, xfer_eq, hacc])
    refine ⟨w, ?_, ?_, ?_, ?_, ?_⟩
    · rw [readPayload, heq]
      simp only [readByte, xfer_eq, hacc, hr, payloadReceived]
      cases s.cfg.mode <;> cases n <;>
        simp [clockAfter, dataAfter, List.append_assoc, Nat.add_assoc, Nat.add_comm]
    · rw [hb]; simp [readByte, xfer_eq, exchanged, hr, payloadReceived, Chip.accept, h]
    · rw [hi]; simp [readByte, xfer_eq, exchanged]
    · rw [ho]; simp [readByte, xfer_eq, exchanged]
    · rw [hc]; cases hm : s.cfg.mode <;> cases n <;> simp [readByte, xfer_eq, exchanged, bitsAfter, hm]

/-- The chip after the payload bytes `d` of a write frame, from index `k` on. -/
def Chip.afterWrite (p : Params) (a : Nat) (c : Chip) : List Byte → Nat → Chip
  | [], _ => c
  | b :: rest, k =>
    Chip.afterWrite p a
      { rx := .payload true a (k + 1), conv := Chip.started p (a + k) b c.conv, fixture := Chip.stored c.fixture (a + k) b }
      rest (k + 1)

/-- All that the payload loop of a write frame does. -/
theorem writePayload_eq (d : List Byte) (k a : Nat) (s : State) (h : s.chip.rx = .payload true a k) :
    ∃ w : Work, writePayload d k s =
      { s with
        work := w
        sck := if d = [] then s.sck else clockAfter s.cfg.mode s.sck
        mosi := d.foldl (fun l b => dataAfter s.cfg.mode b l) s.mosi
        env := (dropped s.cfg.mode d s.env).2
        chip := Chip.afterWrite s.par a s.chip d k
        trace := s.trace ++ (d.zip (dropped s.cfg.mode d s.env).1).flatMap
          (fun x => exchangeEvents s.cfg.mode x.1 x.2) } ∧
      w.rbuf = s.work.rbuf ∧ w.decIn = s.work.decIn ∧ w.decOut = s.work.decOut ∧
      w.bitCnt = (if d = [] then s.work.bitCnt else bitsAfter s.cfg.mode s.work.bitCnt) := by
  induction d generalizing k s with
  | nil => exact ⟨s.work, by simp [writePayload, dropped, Chip.afterWrite], rfl, rfl, rfl, rfl⟩
  | cons b rest ih =>
    have hr : s.chip.reply = none := by unfold Chip.reply; rw [h]; cases s.chip.fixture <;> rfl
    have hacc : s.chip.accept s.par b = { rx := .payload true a (k + 1), conv := Chip.started s.par (a + k) b s.chip.conv, fixture := Chip.stored s.chip.fixture (a + k) b } := by
      simp [Chip.accept, h]
    obtain ⟨w, heq, hb, hi, ho, hc⟩ := ih (k + 1) (writeByte k b s) (by simp [writeByte, xfer_eq, hacc])
    refine ⟨w, ?_, ?_, ?_, ?_, ?_⟩
    · rw [writePayload, heq]
      simp only [writeByte, xfer_eq, hacc, hr, dropped, Chip.afterWrite]
      cases s.cfg.mode <;> cases rest <;> simp [clockAfter, List.append_assoc]
    · rw [hb]; simp [writeByte, xfer_eq, exchanged]
    · rw [hi]; simp [writeByte, xfer_eq, exchanged]
    · rw [ho]; simp [writeByte, xfer_eq, exchanged]
    · rw [hc]; cases hm : s.cfg.mode <;> cases rest <;> simp [writeByte, xfer_eq, exchanged, bitsAfter, hm]

end Sys2Proof.Machine
end

