-- ==== Sys2Proof/Laws/Frames.lean ====
section
/-! SUPPORT. What the frames do, said once, and the byte-level view of their events. -/

namespace Sys2Proof.Machine

/-- BUS_HELD after a frame: released in HW mode. -/
def heldAfter (m : Mode) (h : Bit) : Bit := match m with | .hw => false | .sw => h

theorem payloadReceived_length (m : Mode) (f : Option Memory) (a n k : Nat) (e : Env) :
    (payloadReceived m f a n k e).1.length = n := by
  induction n generalizing k e with
  | zero => rfl
  | succ n ih => simp [payloadReceived, ih]

theorem dropped_length (m : Mode) (d : List Byte) (e : Env) : (dropped m d e).1.length = d.length := by
  induction d generalizing e with
  | nil => rfl
  | cons b rest ih => simp [dropped, ih]

/-- Under the test target, a read within the map receives the array's bytes and draws nothing (20_memory.md R55). -/
theorem payloadReceived_fixture (md : Mode) (m : Memory) (a n k : Nat) (e : Env) (h : a + k + n ≤ Config.nReg) :
    payloadReceived md (some m) a n k e = ((List.range n).map fun i => m.read (a + (k + i)), e) := by
  induction n generalizing k with
  | zero => rfl
  | succ n ih =>
    have hk : a + k < Config.nReg := by omega
    rw [payloadReceived, payloadReply, if_pos hk, received_some]
    simp only
    rw [ih (k + 1) (by omega), List.range_succ_eq_map]
    simp [Nat.add_comm, Nat.add_left_comm]

theorem accept_readAddress (p : Params) (c : Chip) (a : Addr) (h : c.rx = .address) :
    c.accept p (readAddressByte a) = { c with rx := .payload false a.toNat 0 } := by
  have h1 : (readAddressByte a).getLsbD 7 = false := by revert a; decide
  have h2 : addressOf (readAddressByte a) = a := by revert a; decide
  simp only [Chip.accept, h, h1, h2]

theorem accept_writeAddress (p : Params) (c : Chip) (a : Addr) (h : c.rx = .address) :
    c.accept p (writeAddressByte a) = { c with rx := .payload true a.toNat 0 } := by
  have h1 : (writeAddressByte a).getLsbD 7 = true := by revert a; decide
  have h2 : addressOf (writeAddressByte a) = a := by revert a; decide
  simp only [Chip.accept, h, h1, h2]

theorem reply_address (c : Chip) (h : c.rx = .address) : c.reply = none := by
  unfold Chip.reply; rw [h]; cases c.fixture <;> rfl

theorem frameBegin_eq (s : State) :
    frameBegin s =
      { s with
        busHeld := match s.cfg.mode with | .hw => true | .sw => s.busHeld
        csN := false
        chip := { s.chip with rx := .address }
        trace := s.trace ++ openEvents s.cfg } := by
  cases hm : s.cfg.mode <;> simp [frameBegin, openEvents, hm, driveCs, emit, Chip.select]

theorem frameEnd_eq (s : State) :
    frameEnd s =
      { s with
        busHeld := heldAfter s.cfg.mode s.busHeld
        csN := true
        chip := { s.chip with rx := .idle }
        trace := s.trace ++ closeEvents s.cfg } := by
  cases hm : s.cfg.mode <;> simp [frameEnd, closeEvents, hm, driveCs, emit, Chip.select, heldAfter]

/-- What comes back during the address byte, and the environment after it. -/
def addressReceived (m : Mode) (e : Env) : Byte × Env := received m none e

/-- BUS_HELD inside a frame: held in HW mode. -/
def heldInside (m : Mode) (h : Bit) : Bit := match m with | .hw => true | .sw => h

/-- The state when the address byte `ab` of a frame has been sent. -/
def addressed (ab : Byte) (s : State) : State :=
  { s with
    phase := .data
    work := exchanged s.cfg.mode ab (addressReceived s.cfg.mode s.env).1 s.work
    busHeld := heldInside s.cfg.mode s.busHeld
    csN := false
    sck := clockAfter s.cfg.mode s.sck
    mosi := dataAfter s.cfg.mode ab s.mosi
    env := (addressReceived s.cfg.mode s.env).2
    chip := Chip.accept s.par { s.chip with rx := .address } ab
    trace := s.trace ++ openEvents s.cfg ++ exchangeEvents s.cfg.mode ab (addressReceived s.cfg.mode s.env).1 }

theorem addressed_eq (ab : Byte) (s : State) :
    setPhase .data (xfer ab (frameBegin (setPhase .addr s))) = addressed ab s := by
  rw [xfer_eq, frameBegin_eq, reply_address _ rfl]
  rfl

/-- All that a read frame does (30_encoding.md R57, 40_transport.md R82). -/
theorem readFrame_eq (a : Addr) (n : Nat) (s : State) :
    ∃ w : Work, readFrame a n s =
      { s with
        phase := .idle
        work := w
        busHeld := heldAfter s.cfg.mode s.busHeld
        csN := true
        sck := clockAfter s.cfg.mode s.sck
        mosi := dataAfter s.cfg.mode (if n = 0 then readAddressByte a else Config.dummy) s.mosi
        env := (payloadReceived s.cfg.mode s.chip.fixture a.toNat n 0 (addressReceived s.cfg.mode s.env).2).2
        chip := { s.chip with rx := .idle }
        trace := s.trace ++ frameEvents s.cfg (readExchanges a (addressReceived s.cfg.mode s.env).1
          (payloadReceived s.cfg.mode s.chip.fixture a.toNat n 0 (addressReceived s.cfg.mode s.env).2).1) } ∧
      w.rbuf = (payloadReceived s.cfg.mode s.chip.fixture a.toNat n 0 (addressReceived s.cfg.mode s.env).2).1 ∧
      w.decIn = s.work.decIn ∧ w.decOut = s.work.decOut ∧ w.bitCnt = bitsAfter s.cfg.mode s.work.bitCnt := by
  have hacc := accept_readAddress s.par { s.chip with rx := .address } a rfl
  unfold readFrame
  simp only [addressed_eq]
  obtain ⟨w, h2, hb, hi, ho, hc⟩ := readPayload_eq n 0 a.toNat
    { addressed (readAddressByte a) s with work := { (addressed (readAddressByte a) s).work with rbuf := [] } }
    (by simp only [addressed, hacc])
  simp only [addressed, hacc] at h2 hb hi ho hc
  refine ⟨w, ?_, ?_, ?_, ?_, ?_⟩
  · simp only [addressed, hacc, h2, frameEnd_eq, setPhase]
    cases hm : s.cfg.mode <;> by_cases hn : n = 0 <;>
      simp [hn, clockAfter, dataAfter, heldAfter, heldInside, frameEvents, readExchanges, hm,
        List.append_assoc, List.flatMap_map]
  · exact hb
  · exact hi
  · exact ho
  · rw [hc]; cases s.cfg.mode <;> simp [exchanged, bitsAfter]

/-- All that a write frame does (30_encoding.md R58, 40_transport.md R84). -/
theorem writeFrame_eq (a : Addr) (d : List Byte) (s : State) :
    ∃ w : Work, writeFrame a d s =
      { s with
        phase := .idle
        work := w
        busHeld := heldAfter s.cfg.mode s.busHeld
        csN := true
        sck := clockAfter s.cfg.mode s.sck
        mosi := d.foldl (fun l b => dataAfter s.cfg.mode b l) (dataAfter s.cfg.mode (writeAddressByte a) s.mosi)
        env := (dropped s.cfg.mode d (addressReceived s.cfg.mode s.env).2).2
        chip := { Chip.afterWrite s.par a.toNat { s.chip with rx := .payload true a.toNat 0 } d 0 with rx := .idle }
        trace := s.trace ++ frameEvents s.cfg (writeExchanges a (addressReceived s.cfg.mode s.env).1 d
          (dropped s.cfg.mode d (addressReceived s.cfg.mode s.env).2).1) } ∧
      w.rbuf = s.work.rbuf ∧ w.decIn = s.work.decIn ∧ w.decOut = s.work.decOut ∧
      w.bitCnt = bitsAfter s.cfg.mode s.work.bitCnt := by
  have hacc := accept_writeAddress s.par { s.chip with rx := .address } a rfl
  unfold writeFrame
  simp only [addressed_eq]
  obtain ⟨w, h2, hb, hi, ho, hc⟩ := writePayload_eq d 0 a.toNat (addressed (writeAddressByte a) s)
    (by simp only [addressed, hacc])
  simp only [addressed, hacc] at h2 hb hi ho hc
  refine ⟨w, ?_, hb, hi, ho, by rw [hc]; cases s.cfg.mode <;> simp [exchanged, bitsAfter]⟩
  simp only [addressed, hacc, h2, frameEnd_eq, setPhase]
  cases hm : s.cfg.mode <;> by_cases hn : d = [] <;>
    simp [hn, clockAfter, heldAfter, heldInside, frameEvents, writeExchanges, hm, List.append_assoc]

/-! ### The chip after a write frame -/

/-- A one-byte write frame stores its byte, and starts a conversion if it is CR0's with the one-shot bit. -/
theorem afterWrite_one (p : Params) (a : Nat) (c : Chip) (b : Byte) :
    Chip.afterWrite p a c [b] 0 =
      { rx := .payload true a 1, conv := Chip.started p a b c.conv, fixture := Chip.stored c.fixture a b } := rfl

/-! ### The byte-level view -/

theorem byteTrace_exchange (m : Mode) (o i : Byte) (es : List Event) :
    byteTrace (exchangeEvents m o i ++ es) = .xfer o i :: byteTrace es := by
  cases m with
  | hw => rfl
  | sw =>
    have ho := deserialise_serialise o
    have hi := deserialise_serialise i
    simp only [serialise, bitTimes, List.map] at ho hi
    simp [exchangeEvents, bitTimes, byteTrace, byteTraceFrom]
    exact ⟨ho, hi⟩

theorem byteTrace_exchanges (m : Mode) (xs : List (Byte × Byte)) (es : List Event) :
    byteTrace (xs.flatMap (fun x => exchangeEvents m x.1 x.2) ++ es) =
      xs.map (fun x => .xfer x.1 x.2) ++ byteTrace es := by
  induction xs with
  | nil => rfl
  | cons x rest ih => simp [byteTrace_exchange, List.append_assoc, ih]

@[simp] theorem linkTrace_nil : linkTrace [] = [] := rfl

@[simp] theorem linkTrace_cs (l : Bit) (es : List Event) : linkTrace (.cs l :: es) = .cs l :: linkTrace es := rfl

@[simp] theorem linkTrace_delay (w : Nat) (es : List Event) : linkTrace (.delay w :: es) = .delay w :: linkTrace es := rfl

@[simp] theorem linkTrace_sck (l : Bit) (es : List Event) : linkTrace (.sck l :: es) = linkTrace es := rfl

@[simp] theorem linkTrace_busBegin (b : BusSettings) (es : List Event) : linkTrace (.busBegin b :: es) = linkTrace es := rfl

@[simp] theorem linkTrace_busEnd (es : List Event) : linkTrace (.busEnd :: es) = linkTrace es := rfl

theorem linkTrace_exchanges (m : Mode) (xs : List (Byte × Byte)) (es : List Event) :
    linkTrace (xs.flatMap (fun x => exchangeEvents m x.1 x.2) ++ es) =
      xs.map (fun x => .xfer x.1 x.2) ++ linkTrace es := by
  unfold linkTrace
  rw [byteTrace_exchanges, List.filter_append, List.filter_eq_self.2]
  intro e he
  obtain ⟨x, _, rfl⟩ := List.mem_map.1 he
  rfl

/-- A frame is the same in the byte-level view in both modes (40_transport.md R89). -/
theorem linkTrace_frame (c : Cfg) (xs : List (Byte × Byte)) (es : List Event) :
    linkTrace (frameEvents c xs ++ es) = linkFrame xs ++ linkTrace es := by
  unfold frameEvents openEvents closeEvents
  cases c.mode <;> simp [linkTrace_exchanges, List.append_assoc, linkFrame]

theorem linkTrace_frame_last (c : Cfg) (xs : List (Byte × Byte)) :
    linkTrace (frameEvents c xs) = linkFrame xs := by
  have := linkTrace_frame c xs []
  simpa using this

theorem bracket_exchange (m : Mode) (o i : Byte) (es : List Event) :
    Bracket.run m .inside (exchangeEvents m o i ++ es) = Bracket.run m .inside es := by
  cases m <;> rfl

theorem bracket_exchanges (m : Mode) (xs : List (Byte × Byte)) (es : List Event) :
    Bracket.run m .inside (xs.flatMap (fun x => exchangeEvents m x.1 x.2) ++ es) = Bracket.run m .inside es := by
  induction xs with
  | nil => rfl
  | cons y rest ih => rw [List.flatMap_cons, List.append_assoc, bracket_exchange, ih]

/-- A frame's events are well-bracketed, whatever follows. -/
theorem bracket_frame (c : Cfg) (xs : List (Byte × Byte)) (es : List Event) :
    Bracket.run c.mode .outside (frameEvents c xs ++ es) = Bracket.run c.mode .outside es := by
  unfold frameEvents openEvents closeEvents
  simp only [List.append_assoc]
  cases c.mode with
  | hw => exact bracket_exchanges .hw xs (.cs true :: .busEnd :: es)
  | sw => exact bracket_exchanges .sw xs (.cs true :: es)

end Sys2Proof.Machine
end

