-- ==== Sys2Proof/Laws/Memory.lean ====
section
/-! SUPPORT. The register array of the test target: a read after a write gives the value written at that address and the old
value elsewhere; a write keeps the canonical form. -/

namespace Sys2Proof.Machine

theorem Memory.wf_iff (m : Memory) :
    m.wf = true ↔ m.Pairwise (fun x y => x.1 < y.1) ∧ ∀ c ∈ m, c.1 < Config.nReg ∧ c.2 ≠ Memory.unlisted c.1 := by
  simp [Memory.wf]

theorem Memory.wf_cons {c : Host.Cell} {m : Memory} (h : Memory.wf (c :: m) = true) :
    m.wf = true ∧ c.1 < Config.nReg ∧ c.2 ≠ Memory.unlisted c.1 ∧ ∀ d ∈ m, c.1 < d.1 := by
  rw [Memory.wf_iff, List.pairwise_cons] at h
  rw [Memory.wf_iff]
  exact ⟨⟨h.1.2, fun d hd => h.2 d (List.mem_cons_of_mem _ hd)⟩, (h.2 c List.mem_cons_self).1,
    (h.2 c List.mem_cons_self).2, h.1.1⟩

/-- An address below every listed one is not listed. -/
theorem Memory.read_below (m : Memory) (a : Nat) (h : ∀ d ∈ m, a < d.1) : m.read a = Memory.unlisted a := by
  induction m with
  | nil => rfl
  | cons c rest ih =>
    have hc := h c List.mem_cons_self
    rw [Memory.read, if_neg (by omega)]
    exact ih fun d hd => h d (List.mem_cons_of_mem _ hd)

/-- A read after a write. -/
theorem Memory.read_write (m : Memory) (a : Nat) (b : Byte) (c : Nat) (h : m.wf = true) :
    (m.write a b).read c = if c = a then b else m.read c := by
  induction m with
  | nil =>
    by_cases hb : b = Memory.unlisted a <;> by_cases hc : c = a <;> simp [Memory.write, Memory.read, hb, hc, eq_comm]
    intro h'; exact absurd h'.symm hc
  | cons d rest ih =>
    obtain ⟨k, v⟩ := d
    obtain ⟨hw, _, _, hlt⟩ := Memory.wf_cons h
    rw [Memory.write]
    split
    · rename_i hak
      have hnot : Memory.read ((k, v) :: rest) a = Memory.unlisted a :=
        Memory.read_below _ _ (by
          intro d hd
          rcases List.mem_cons.1 hd with rfl | hd
          · exact hak
          · exact lt_trans hak (hlt d hd))
      split
      · rename_i hb
        by_cases hc : c = a
        · subst hc; rw [if_pos rfl, hnot, hb]
        · rw [if_neg hc]
      · by_cases hc : c = a
        · subst hc; simp [Memory.read]
        · rw [if_neg hc, Memory.read, if_neg (Ne.symm hc)]
    · split
      · rename_i hak
        subst hak
        have hnot : Memory.read rest a = Memory.unlisted a := Memory.read_below _ _ hlt
        split
        · rename_i hb
          by_cases hc : c = a
          · subst hc; rw [if_pos rfl, hnot, hb]
          · rw [if_neg hc, Memory.read, if_neg (Ne.symm hc)]
        · by_cases hc : c = a
          · subst hc; simp [Memory.read]
          · rw [if_neg hc, Memory.read, if_neg (Ne.symm hc), Memory.read, if_neg (Ne.symm hc)]
      · rename_i hak hne
        rw [Memory.read, ih hw, Memory.read]
        by_cases hk : k = c
        · subst hk; rw [if_pos rfl, if_pos rfl, if_neg (fun h' => hne h'.symm)]
        · rw [if_neg hk, if_neg hk]

/-- What a write lists: the address written, or an address listed before. -/
theorem Memory.mem_write (m : Memory) (a : Nat) (b : Byte) (d : Host.Cell) (h : d ∈ m.write a b) :
    (d.1 = a ∧ d.2 = b ∧ b ≠ Memory.unlisted a) ∨ d ∈ m := by
  induction m with
  | nil =>
    rw [Memory.write] at h
    split at h
    · cases h
    · rw [List.mem_singleton] at h; subst h; exact .inl ⟨rfl, rfl, ‹_›⟩
  | cons c rest ih =>
    obtain ⟨k, v⟩ := c
    rw [Memory.write] at h
    split at h
    · split at h
      · exact .inr h
      · rcases List.mem_cons.1 h with rfl | h
        · exact .inl ⟨rfl, rfl, ‹_›⟩
        · exact .inr h
    · split at h
      · split at h
        · exact .inr (List.mem_cons_of_mem _ h)
        · rcases List.mem_cons.1 h with rfl | h
          · exact .inl ⟨rfl, rfl, ‹_›⟩
          · exact .inr (List.mem_cons_of_mem _ h)
      · rcases List.mem_cons.1 h with rfl | h
        · exact .inr List.mem_cons_self
        · exact (ih h).imp id (List.mem_cons_of_mem _)

/-- A write within the map keeps the canonical form. -/
theorem Memory.wf_write (m : Memory) (a : Nat) (b : Byte) (h : m.wf = true) (ha : a < Config.nReg) :
    (m.write a b).wf = true := by
  induction m with
  | nil =>
    rw [Memory.write]
    split
    · rfl
    · rw [Memory.wf_iff]; exact ⟨List.pairwise_singleton _ _, by simpa using ⟨ha, ‹_›⟩⟩
  | cons c rest ih =>
    obtain ⟨k, v⟩ := c
    obtain ⟨hw, hk, hv, hlt⟩ := Memory.wf_cons h
    have hall := (Memory.wf_iff _).1 h
    rw [Memory.write]
    split
    · rename_i hak
      split
      · exact h
      · rw [Memory.wf_iff, List.pairwise_cons]
        refine ⟨⟨?_, hall.1⟩, ?_⟩
        · intro d hd
          rcases List.mem_cons.1 hd with rfl | hd
          · exact hak
          · exact lt_trans hak (hlt d hd)
        · intro d hd
          rcases List.mem_cons.1 hd with rfl | hd
          · exact ⟨ha, ‹_›⟩
          · exact hall.2 d hd
    · split
      · rename_i hak
        subst hak
        split
        · exact hw
        · rw [Memory.wf_iff, List.pairwise_cons]
          refine ⟨⟨hlt, ((Memory.wf_iff _).1 hw).1⟩, ?_⟩
          intro d hd
          rcases List.mem_cons.1 hd with rfl | hd
          · exact ⟨ha, ‹_›⟩
          · exact ((Memory.wf_iff _).1 hw).2 d hd
      · rename_i hak hne
        rw [Memory.wf_iff, List.pairwise_cons]
        refine ⟨⟨?_, ((Memory.wf_iff _).1 (ih hw)).1⟩, ?_⟩
        · intro d hd
          rcases Memory.mem_write _ _ _ _ hd with ⟨hda, _, _⟩ | hd
          · show k < d.1
            omega
          · exact hlt d hd
        · intro d hd
          rcases List.mem_cons.1 hd with rfl | hd
          · exact ⟨hk, hv⟩
          · exact ((Memory.wf_iff _).1 (ih hw)).2 d hd

/-- Storing a payload byte keeps the canonical form of the array. -/
theorem Chip.stored_wf (f : Option Memory) (a : Nat) (b : Byte) (h : ∀ m, f = some m → m.wf = true) :
    ∀ m, Chip.stored f a b = some m → m.wf = true := by
  intro m hm
  unfold Chip.stored at hm
  split at hm
  · cases f with
    | none => simp at hm
    | some m0 =>
      simp only [Option.map_some, Option.some.injEq] at hm
      subst hm
      exact Memory.wf_write _ _ _ (h m0 rfl) ‹_›
  · exact h m hm

/-- What a stored payload byte changes. -/
theorem Chip.stored_read (f : Option Memory) (a : Nat) (b : Byte) (c : Nat) (h : ∀ m, f = some m → m.wf = true)
    (ha : a < Config.nReg) :
    (Chip.stored f a b).map (fun m => m.read c) = if c = a then f.map (fun _ => b) else f.map (fun m => m.read c) := by
  unfold Chip.stored
  rw [if_pos ha]
  cases f with
  | none => simp
  | some m => simp only [Option.map_some, Memory.read_write _ _ _ _ (h m rfl)]; split <;> rfl

end Sys2Proof.Machine
end

