-- ==== Sys2Proof/Laws/Exec.lean ====
section
/-! SUPPORT. What a sequence of frames amounts to, in a form that composes: the events it appends, how it returns, what it keeps;
and what each shared operation of the meanings does. -/

namespace Sys2Proof.Machine

/-- From `s` to `t` the block has run complete frames: `link` in the byte-level view, `ws` asked of the delay primitive. -/
structure Ran (s t : State) (link : List ByteEvent) (ws : List Nat) : Prop where
  events : ∃ evs, t.trace = s.trace ++ evs ∧ (∀ es, linkTrace (evs ++ es) = link ++ linkTrace es) ∧
    (∀ es, Bracket.run s.cfg.mode .outside (evs ++ es) = Bracket.run s.cfg.mode .outside es) ∧ delays evs = ws
  idle : ReturnsIdle s t
  handle : KeepsHandle s t

theorem Ran.sends {s t : State} {link : List ByteEvent} {ws : List Nat} (h : Ran s t link ws) : Sends s t link := by
  obtain ⟨evs, h1, h2, -, -⟩ := h.events
  exact ⟨⟨evs, h1, by simpa using h2 []⟩, h.idle, h.handle⟩

theorem KeepsHandle.trans {s t u : State} (h : KeepsHandle s t) (h' : KeepsHandle t u) : KeepsHandle s u :=
  ⟨h'.1.trans h.1, h'.2.1.trans h.2.1, h'.2.2.trans h.2.2⟩

theorem ReturnsIdle.trans {s t u : State} (hk : KeepsHandle s t) (h : ReturnsIdle s t) (h' : ReturnsIdle t u) :
    ReturnsIdle s u := by
  obtain ⟨-, -, -, hw, sw⟩ := h
  obtain ⟨c, p, x, hw', sw'⟩ := h'
  rw [hk.1] at hw' sw'
  exact ⟨c, p, x,
    fun m => ⟨(hw' m).1, (hw' m).2.1.trans (hw m).2.1, (hw' m).2.2.1.trans (hw m).2.2.1,
      (hw' m).2.2.2.trans (hw m).2.2.2⟩,
    fun m => ⟨(sw' m).1.trans (sw m).1, (sw' m).2.1, (sw' m).2.2⟩⟩

/-- Frames after frames. -/
theorem Ran.trans {s t u : State} {l l' : List ByteEvent} {ws ws' : List Nat} (h : Ran s t l ws) (h' : Ran t u l' ws') :
    Ran s u (l ++ l') (ws ++ ws') := by
  obtain ⟨e, h1, h2, h3, h4⟩ := h.events
  obtain ⟨e', h1', h2', h3', h4'⟩ := h'.events
  rw [h.handle.1] at h3'
  refine ⟨⟨e ++ e', ?_, ?_, ?_, ?_⟩, h.idle.trans h.handle h'.idle, h.handle.trans h'.handle⟩
  · rw [h1', h1, List.append_assoc]
  · intro es; rw [List.append_assoc, h2, h2', List.append_assoc]
  · intro es; rw [List.append_assoc, h3, h3']
  · rw [← h4, ← h4']; simp [delays]

/-- The frames of two states that differ only in the result. -/
theorem Ran.giveResult {s t : State} {l : List ByteEvent} {ws : List Nat} (r : Result) (h : Ran s t l ws) :
    Ran s (giveResult r t) l ws := ⟨h.events, h.idle, h.handle⟩

theorem delays_exchange (m : Mode) (o i : Byte) : delays (exchangeEvents m o i) = [] := by cases m <;> rfl

theorem delays_frame (c : Cfg) (xs : List (Byte × Byte)) : delays (frameEvents c xs) = [] := by
  have h : ∀ ys : List (Byte × Byte), delays (ys.flatMap fun x => exchangeEvents c.mode x.1 x.2) = [] := by
    intro ys
    induction ys with
    | nil => rfl
    | cons y rest ih =>
      rw [List.flatMap_cons, delays, List.filterMap_append]
      exact List.append_eq_nil_iff.2 ⟨delays_exchange _ _ _, ih⟩
  have h' := h xs
  unfold delays at h' ⊢
  unfold frameEvents openEvents closeEvents
  cases hm : c.mode <;> simp only [hm] at h' <;> simp [h']

theorem returnsIdle_of (s t : State) (m : Bit) (w : Work) (hw : w.bitCnt = bitsAfter s.cfg.mode s.work.bitCnt)
    (hm : s.cfg.mode = .hw → m = s.mosi) (ht : t.work = w ∧ t.mosi = m ∧ t.csN = true ∧ t.phase = .idle ∧
      t.chip.rx = .idle ∧ t.busHeld = heldAfter s.cfg.mode s.busHeld ∧ t.sck = clockAfter s.cfg.mode s.sck) :
    ReturnsIdle s t := by
  obtain ⟨h1, h2, h3, h4, h5, h6, h7⟩ := ht
  refine ⟨h3, h4, h5, fun h => ?_, fun h => ?_⟩
  · rw [h6, h7, h2, h1, hw, h]; exact ⟨rfl, rfl, hm h, rfl⟩
  · rw [h6, h7, h1, hw, h]; exact ⟨rfl, rfl, rfl⟩

/-- A read frame, as a composable whole: what it received, where that came from, what it left. -/
theorem readFrame_ran (a : Addr) (n : Nat) (s : State) :
    ∃ x ds, Ran s (readFrame a n s) (linkFrame (readExchanges a x ds)) [] ∧ ds.length = n ∧
      (readFrame a n s).work.rbuf = ds ∧ KeepsDecoder s (readFrame a n s) ∧
      (readFrame a n s).chip = { s.chip with rx := .idle } ∧ (readFrame a n s).result = s.result ∧
      (∀ m, s.chip.fixture = some m → a.toNat + n ≤ Config.nReg → ds = (List.range n).map fun k => m.read (a.toNat + k)) ∧
      (s.cfg.mode = .sw → 0 < n → (readFrame a n s).mosi = true) := by
  obtain ⟨w, h, hb, hi, ho, hc⟩ := readFrame_eq a n s
  refine ⟨(addressReceived s.cfg.mode s.env).1,
    (payloadReceived s.cfg.mode s.chip.fixture a.toNat n 0 (addressReceived s.cfg.mode s.env).2).1,
    ⟨⟨frameEvents s.cfg _, ?_, linkTrace_frame _ _, bracket_frame _ _, delays_frame _ _⟩, ?_, ?_⟩,
    payloadReceived_length _ _ _ _ _ _, ?_, ?_, ?_, ?_, ?_, ?_⟩
  · rw [h]
  · rw [h]; exact returnsIdle_of _ _ _ w hc (fun hm => by rw [hm]; rfl) ⟨rfl, rfl, rfl, rfl, rfl, rfl, rfl⟩
  · rw [h]; exact ⟨rfl, rfl, rfl⟩
  · rw [h, hb]
  · rw [h]; exact ⟨hi, ho⟩
  · rw [h]
  · rw [h]
  · intro m hm hn
    rw [hm, payloadReceived_fixture _ _ _ _ _ _ (by omega)]
    simp
  · intro hm hn
    rw [h, hm]
    simp only [dataAfter, if_neg (Nat.pos_iff_ne_zero.1 hn)]
    decide

/-- A write frame, as a composable whole. -/
theorem writeFrame_ran (a : Addr) (d : List Byte) (s : State) :
    ∃ x rs, Ran s (writeFrame a d s) (linkFrame (writeExchanges a x d rs)) [] ∧ rs.length = d.length ∧
      (writeFrame a d s).work.rbuf = s.work.rbuf ∧ KeepsDecoder s (writeFrame a d s) ∧
      (writeFrame a d s).chip =
        { Chip.afterWrite s.par a.toNat { s.chip with rx := .payload true a.toNat 0 } d 0 with rx := .idle } ∧
      (writeFrame a d s).result = s.result := by
  obtain ⟨w, h, hb, hi, ho, hc⟩ := writeFrame_eq a d s
  have hmosi : ∀ (e : List Byte) (l : Bit), s.cfg.mode = .hw → e.foldl (fun l b => dataAfter s.cfg.mode b l) l = l := by
    intro e l hm
    rw [hm]
    induction e generalizing l with
    | nil => rfl
    | cons b rest ih => exact ih l
  refine ⟨(addressReceived s.cfg.mode s.env).1, (dropped s.cfg.mode d (addressReceived s.cfg.mode s.env).2).1,
    ⟨⟨frameEvents s.cfg _, ?_, linkTrace_frame _ _, bracket_frame _ _, delays_frame _ _⟩, ?_, ?_⟩,
    dropped_length _ _ _, ?_, ?_, ?_, ?_⟩
  · rw [h]
  · rw [h]
    exact returnsIdle_of _ _ _ w hc (fun hm => by rw [hmosi _ _ hm, hm]; rfl) ⟨rfl, rfl, rfl, rfl, rfl, rfl, rfl⟩
  · rw [h]; exact ⟨rfl, rfl, rfl⟩
  · rw [h, hb]
  · rw [h]; exact ⟨hi, ho⟩
  · rw [h]
  · rw [h]

/-- The array of the test target after a write frame within its map is in canonical form if it was before. -/
theorem afterWrite_wf (p : Params) (a : Nat) (d : List Byte) (k : Nat) (c : Chip)
    (h : ∀ m, c.fixture = some m → m.wf = true) :
    ∀ m, (Chip.afterWrite p a c d k).fixture = some m → m.wf = true := by
  induction d generalizing k c with
  | nil => exact h
  | cons b rest ih => exact ih (k + 1) _ (Chip.stored_wf _ _ _ h)

/-- What a write frame stores: list element `k` at `a + k`, nothing else. -/
theorem afterWrite_read (p : Params) (a : Nat) (d : List Byte) (k : Nat) (c : Chip) (b : Nat)
    (h : ∀ m, c.fixture = some m → m.wf = true) (ha : c.fixture = none ∨ a + k + d.length ≤ Config.nReg) :
    (Chip.afterWrite p a c d k).fixture.map (fun m => m.read b) =
      if a + k ≤ b ∧ b < a + k + d.length then c.fixture.map (fun _ => d.getD (b - (a + k)) 0x00#8)
      else c.fixture.map (fun m => m.read b) := by
  induction d generalizing k c with
  | nil =>
    rw [if_neg (by simp only [List.length_nil]; omega)]
    rfl
  | cons v rest ih =>
    rw [Chip.afterWrite, ih (k + 1) _ (Chip.stored_wf _ _ _ h)]
    · rcases ha with hn | ha
      · simp [hn, Chip.stored]
      · have hk : a + k < Config.nReg := by simp only [List.length_cons] at ha; omega
        have hs := Chip.stored_read c.fixture (a + k) v b h hk
        have hmap : ∀ y : Byte, (Chip.stored c.fixture (a + k) v).map (fun _ => y) = c.fixture.map (fun _ => y) := by
          intro y; unfold Chip.stored; rw [if_pos hk]; cases c.fixture <;> rfl
        simp only [hs, hmap, List.length_cons]
        by_cases hb : b = a + k
        · subst hb
          rw [if_neg (by omega), if_pos rfl, if_pos (by omega)]
          simp
        · rw [if_neg hb]
          by_cases hr : a + (k + 1) ≤ b ∧ b < a + (k + 1) + rest.length
          · rw [if_pos hr, if_pos (by omega)]
            have : b - (a + k) = (b - (a + (k + 1))) + 1 := by omega
            rw [this, List.getD_cons_succ]
          · rw [if_neg hr, if_neg (by omega)]
    · rcases ha with hn | ha
      · left; simp [hn, Chip.stored]
      · right; simp only [List.length_cons] at ha; omega

/-- A conversion has started after a write frame exactly if a byte with the one-shot bit landed at CR0. -/
theorem afterWrite_conv (p : Params) (a : Nat) (d : List Byte) (k : Nat) (c : Chip) :
    (Chip.afterWrite p a c d k).conv =
      if a + k ≤ p.addrCr0.toNat ∧ p.addrCr0.toNat < a + k + d.length ∧
        d.getD (p.addrCr0.toNat - (a + k)) 0x00#8 &&& p.oneShotMask ≠ 0x00#8 then .converting else c.conv := by
  induction d generalizing k c with
  | nil => rw [if_neg (by simp only [List.length_nil]; omega)]; rfl
  | cons v rest ih =>
    rw [Chip.afterWrite, ih]
    simp only [Chip.started, List.length_cons]
    by_cases hb : p.addrCr0.toNat = a + k
    · rw [if_neg (by omega)]
      simp [hb]
    · rw [if_neg (show ¬(a + k = p.addrCr0.toNat ∧ _) from fun h => hb h.1.symm)]
      by_cases hr : a + (k + 1) ≤ p.addrCr0.toNat
      · have : p.addrCr0.toNat - (a + k) = (p.addrCr0.toNat - (a + (k + 1))) + 1 := by omega
        rw [this, List.getD_cons_succ]
        congr 1
        simp only [eq_iff_iff]
        constructor <;> rintro ⟨h1, h2, h3⟩ <;> exact ⟨by omega, by omega, h3⟩
      · rw [if_neg (fun h => hr h.1), if_neg (fun h => by omega)]

/-- The bits of `peek`. -/
theorem peek_def (s : State) (a : Nat) : s.peek a = s.chip.fixture.map (fun m => m.read a) := rfl

/-- A frame that is on the map of the test target, or none is attached. -/
theorem onMap_iff (s : State) (a : Addr) (n : Nat) :
    s.onMap a n = true ↔ s.chip.fixture = none ∨ a.toNat + (n - 1) < Config.nReg := by
  simp [State.onMap]

/-- What going on under `onTarget` means. -/
theorem onTarget_next (fs : List (Addr × Nat)) (s t : State) (h : ∀ f ∈ fs, s.onMap f.1 f.2 = true) :
    onTarget fs s t = .next t := by
  rw [onTarget, if_pos (List.all_eq_true.2 h)]

theorem onTarget_inv (fs : List (Addr × Nat)) (s t u : State) (h : onTarget fs s t = .next u) :
    u = t ∧ ∀ f ∈ fs, s.onMap f.1 f.2 = true := by
  unfold onTarget at h
  split at h
  · rename_i hf
    exact ⟨by injection h with h; exact h.symm, List.all_eq_true.1 hf⟩
  · cases h

/-- Within the constraints of R6 and R48 every region is on the map. -/
theorem legal_bounds (p : Params) (h : p.legal = true) :
    p.addrCr0.toNat < 16 ∧ p.addrCr1.toNat < 16 ∧ p.addrCjt.toNat + 1 < 16 ∧ p.addrLtc.toNat + 2 < 16 ∧
      p.addrSr.toNat < 16 ∧ p.addrCr0 ≠ p.addrCr1 := by
  simp only [Params.legal, Bool.and_eq_true] at h
  obtain ⟨⟨⟨⟨⟨⟨⟨⟨h1, h2⟩, -⟩, -⟩, -⟩, -⟩, -⟩, -⟩, -⟩ := h
  have h2 := of_decide_eq_true h2
  simp only [Params.regionBytes, List.all_cons, List.all_nil, Bool.and_eq_true, decide_eq_true_eq] at h1
  simp only [Params.regionBytes, List.nodup_cons, List.mem_cons, not_or] at h2
  obtain ⟨a, b, c, d, e, f, g, i, -⟩ := h1
  exact ⟨a, b, d, g, i, fun heq => h2.1.1 (by rw [heq])⟩

theorem legal_maxCount (p : Params) (h : p.legal = true) : 0 < p.maxCount := by
  simp only [Params.legal, Bool.and_eq_true] at h
  exact of_decide_eq_true h.1.2

/-- What `countChecked` does: it goes on, or refuses, and the count alone decides which. -/
theorem countChecked_next (n : Nat) (s : State) (go : Host.Outcome State Fault Refusal) (h : n ≤ s.par.maxCount) :
    countChecked n s go = go := if_pos h

theorem countChecked_refused (n : Nat) (s : State) (go : Host.Outcome State Fault Refusal) (h : s.par.maxCount < n) :
    countChecked n s go = .refused (.countAboveMax n) := if_neg (Nat.not_le.2 h)

end Sys2Proof.Machine
end

