-- ==== Sys2Proof/Laws/Controller.lean ====
section
/-! SUPPORT. What the controller's shared operations do: the one-byte read, the read-modify-write, the trigger; and the chip a
one-byte write frame leaves. -/

namespace Sys2Proof.Machine

/-- A read frame with one payload byte. -/
theorem readOne_ran (a : Addr) (s : State) :
    ∃ x v, Ran s (readFrame a 1 s) (linkFrame (readExchanges a x [v])) [] ∧ (readFrame a 1 s).work.rbuf = [v] ∧
      (readFrame a 1 s).rbufByte 0 = v ∧ KeepsDecoder s (readFrame a 1 s) ∧
      (readFrame a 1 s).chip = { s.chip with rx := .idle } ∧ (readFrame a 1 s).result = s.result ∧
      (∀ m, s.chip.fixture = some m → a.toNat < Config.nReg → v = m.read a.toNat) := by
  obtain ⟨x, ds, hr, hl, hb, hk, hc, hres, hm, -⟩ := readFrame_ran a 1 s
  obtain ⟨v, rfl⟩ := List.length_eq_one_iff.1 hl
  refine ⟨x, v, hr, hb, by rw [State.rbufByte, hb]; rfl, hk, hc, hres, fun m h1 h2 => ?_⟩
  simpa using hm m h1 h2

/-- The chip after a one-byte write frame. -/
def Chip.wrote (p : Params) (a : Nat) (b : Byte) (c : Chip) : Chip :=
  { rx := .idle, conv := Chip.started p a b c.conv, fixture := Chip.stored c.fixture a b }

/-- A write frame with one payload byte. -/
theorem writeOne_ran (a : Addr) (b : Byte) (s : State) :
    ∃ x z, Ran s (writeFrame a [b] s) (linkFrame (writeExchanges a x [b] [z])) [] ∧
      (writeFrame a [b] s).work.rbuf = s.work.rbuf ∧ KeepsDecoder s (writeFrame a [b] s) ∧
      (writeFrame a [b] s).chip = Chip.wrote s.par a.toNat b s.chip ∧ (writeFrame a [b] s).result = s.result := by
  obtain ⟨x, rs, hr, hl, hb, hk, hc, hres⟩ := writeFrame_ran a [b] s
  obtain ⟨z, rfl⟩ := List.length_eq_one_iff.1 hl
  exact ⟨x, z, hr, hb, hk, by rw [hc, afterWrite_one]; rfl, hres⟩

/-- A stored byte reads back, every other byte as before. -/
theorem wrote_stores (s t : State) (a : Nat) (b : Byte) (p : Params) (c : Chip) (hc : c.fixture = s.chip.fixture)
    (ht : t.chip = Chip.wrote p a b c) (hw : TargetWf s) (ha : s.chip.fixture = none ∨ a < Config.nReg) :
    StoresByte s t a b := by
  intro d
  rw [peek_def, peek_def, ht]
  simp only [Chip.wrote, hc]
  rcases ha with hn | ha
  · simp [hn, Chip.stored]
  · exact Chip.stored_read _ _ _ _ hw ha

theorem wrote_wf (p : Params) (a : Nat) (b : Byte) (c : Chip) (h : ∀ m, c.fixture = some m → m.wf = true) :
    ∀ m, (Chip.wrote p a b c).fixture = some m → m.wf = true := Chip.stored_wf _ _ _ h

theorem KeepsDecoder.trans {s t u : State} (h : KeepsDecoder s t) (h' : KeepsDecoder t u) : KeepsDecoder s u :=
  ⟨h'.1.trans h.1, h'.2.trans h.2⟩

/-- The read-modify-write of one register: the byte read, and the byte it makes of it written back (42_controller.md R101). -/
theorem rmw_ran (a : Addr) (f : Byte → Byte) (s : State) :
    ∃ x v y z, Ran s (rmw a f s) (linkRmw a x v y (f v) z) [] ∧ (rmw a f s).work.rbuf = [v] ∧ KeepsDecoder s (rmw a f s) ∧
      (rmw a f s).chip = Chip.wrote s.par a.toNat (f v) s.chip ∧ (rmw a f s).result = s.result ∧
      (∀ m, s.chip.fixture = some m → a.toNat < Config.nReg → v = m.read a.toNat) := by
  obtain ⟨x, v, hr, hb, h0, hk, hc, hres, hm⟩ := readOne_ran a s
  obtain ⟨y, z, hr', hb', hk', hc', hres'⟩ := writeOne_ran a (f v) (readFrame a 1 s)
  refine ⟨x, v, y, z, ?_, ?_, ?_, ?_, ?_, hm⟩
  · rw [rmw, h0]; exact hr.trans hr'
  · rw [rmw, h0, hb', hb]
  · rw [rmw, h0]; exact hk.trans hk'
  · rw [rmw, h0, hc', hr.handle.2.1, hc]; rfl
  · rw [rmw, h0, hres', hres]

/-- A delay after frames. -/
theorem Ran.waited {s t : State} {l : List ByteEvent} {ws : List Nat} (w : Nat) (h : Ran s t l ws) :
    Ran s (setPhase .idle (delay w (setPhase .wait t))) (l ++ [.delay w]) (ws ++ [w]) := by
  obtain ⟨e, h1, h2, h3, h4⟩ := h.events
  refine ⟨⟨e ++ [.delay w], ?_, ?_, ?_, ?_⟩, ?_, h.handle⟩
  · simp [h1, setPhase, delay, emit]
  · intro es; rw [List.append_assoc, h2, List.append_assoc]; rfl
  · intro es
    rw [List.append_assoc, h3, List.singleton_append]
    cases s.cfg.mode <;> rfl
  · rw [← h4]; simp [delays]
  · obtain ⟨a, b, c, d, e⟩ := h.idle
    exact ⟨a, rfl, c, d, e⟩

/-- TRIG (42_controller.md R110). -/
theorem trigger_ran (s : State) :
    ∃ x0 c0 x1 c1 x2 y, Ran s (trigger s) (linkTrigger s.par x0 c0 x1 c1 x2 (triggerValue s.par c0) y (waitMs c0 c1))
        [waitMs c0 c1] ∧
      (trigger s).work.rbuf = [c1] ∧ KeepsDecoder s (trigger s) ∧
      (trigger s).chip = { Chip.wrote s.par s.par.addrCr0.toNat (triggerValue s.par c0) s.chip with conv := .idle } ∧
      (trigger s).result = s.result ∧
      (∀ m, s.chip.fixture = some m → s.par.addrCr0.toNat < Config.nReg → c0 = m.read s.par.addrCr0.toNat) ∧
      (∀ m, s.chip.fixture = some m → s.par.addrCr1.toNat < Config.nReg → c1 = m.read s.par.addrCr1.toNat) := by
  obtain ⟨x0, c0, r1, b1, v1, k1, ch1, rs1, m1⟩ := readOne_ran s.par.addrCr0 s
  have p1 := r1.handle.2.1
  obtain ⟨x1, c1, r2, b2, v2, k2, ch2, rs2, m2⟩ := readOne_ran s.par.addrCr1 (readFrame s.par.addrCr0 1 s)
  have p2 := r2.handle.2.1
  obtain ⟨x2, y, r3, b3, k3, ch3, rs3⟩ := writeOne_ran s.par.addrCr0 (triggerValue s.par c0)
    (readFrame s.par.addrCr1 1 (readFrame s.par.addrCr0 1 s))
  refine ⟨x0, c0, x1, c1, x2, y, ?_, ?_, ?_, ?_, ?_, m1, ?_⟩
  · simp only [trigger, p1, p2, v1, v2]
    have := (((r1.trans r2).trans r3).waited (waitMs c0 c1))
    simpa [linkTrigger, List.append_assoc] using this
  · simp only [trigger, p1, p2, v1, v2, setPhase_work, delay_work, b3, b2]
  · simp only [trigger, p1, p2, v1, v2]
    exact (k1.trans k2).trans k3
  · simp only [trigger, p1, p2, v1, v2, setPhase_chip, delay_chip, ch3, ch2, ch1]
    rfl
  · simp only [trigger, p1, p2, v1, v2, setPhase_result, delay_result, rs3, rs2, rs1]
  · intro m hm ha
    exact m2 m (by rw [ch1]; exact hm) ha

/-! ### Where the macro-commands' frames are -/

/-- Every frame of a macro-command is on the map under MacrosOnMap. -/
theorem macro_onMap (s : State) (h : MacrosOnMap s) :
    s.onMap s.par.addrCr0 1 = true ∧ s.onMap s.par.addrCr1 1 = true ∧ s.onMap s.par.addrLtc 3 = true ∧
      s.onMap s.par.addrCjt 2 = true ∧ s.onMap s.par.addrSr 1 = true := by
  simp only [onMap_iff, Config.nReg]
  rcases h with h | h
  · simp [h]
  · obtain ⟨a, b, c, d, e, -⟩ := legal_bounds _ h
    exact ⟨.inr (by omega), .inr (by omega), .inr (by omega), .inr (by omega), .inr (by omega)⟩

theorem rmw_onTarget (a : Addr) (s t : State) (h : s.onMap a 1 = true) : onTarget (rmwFrames a) s t = .next t :=
  onTarget_next _ _ _ (by simp [rmwFrames, h])

theorem one_onTarget (a : Addr) (n : Nat) (s t : State) (h : s.onMap a n = true) : onTarget [(a, n)] s t = .next t :=
  onTarget_next _ _ _ (by simp [h])

end Sys2Proof.Machine
end

