-- ==== Sys2Proof/Laws/Step.lean ====
section
/-! SUPPORT. What a command and a step can do, said once: inversion lemmas over all commands. -/

namespace Sys2Proof.Machine

/-- The commands that start a conversion and wait for it. -/
def startsConversion (i : Instr) : Prop := i = .trig ∨ i = .rdtc ∨ i = .rdcj

/-- What a command with frames amounts to: complete frames, the waits it asks for, a test target still in canonical form, and
RBUF within its bound. -/
structure FramesRun (i : Instr) (s t : State) : Prop where
  ran : ∃ l ws, Ran s t l ws ∧ (ws = [] ∧ ¬ startsConversion i ∨ ∃ c0 c1, ws = [waitMs c0 c1] ∧ startsConversion i)
  target : TargetWf s → TargetWf t
  buffer : 0 < s.par.maxCount → s.work.rbuf.length ≤ s.par.maxCount → t.work.rbuf.length ≤ s.par.maxCount
  attached : t.chip.fixture.isSome = s.chip.fixture.isSome

theorem targetWf_of_chip {s t : State} (h : t.chip.fixture = s.chip.fixture) (hw : TargetWf s) : TargetWf t := by
  unfold TargetWf; rw [h]; exact hw

theorem stored_isSome (f : Option Memory) (a : Nat) (b : Byte) : (Chip.stored f a b).isSome = f.isSome := by
  unfold Chip.stored; split <;> simp

theorem afterWrite_isSome (p : Params) (a : Nat) (d : List Byte) (k : Nat) (c : Chip) :
    (Chip.afterWrite p a c d k).fixture.isSome = c.fixture.isSome := by
  induction d generalizing k c with
  | nil => rfl
  | cons b rest ih => rw [Chip.afterWrite, ih]; exact stored_isSome _ _ _

theorem framesRun_read (i : Instr) (hi : ¬ startsConversion i) (a : Addr) (n : Nat) (s : State)
    (hn : 0 < s.par.maxCount → n ≤ s.par.maxCount) : FramesRun i s (readFrame a n s) := by
  obtain ⟨x, ds, hr, hl, hb, -, hc, -⟩ := readFrame_ran a n s
  exact ⟨⟨_, _, hr, .inl ⟨rfl, hi⟩⟩, targetWf_of_chip (by rw [hc]), fun hp _ => by rw [hb, hl]; exact hn hp, by rw [hc]⟩

theorem framesRun_write (i : Instr) (hi : ¬ startsConversion i) (a : Addr) (d : List Byte) (s : State) :
    FramesRun i s (writeFrame a d s) := by
  obtain ⟨x, rs, hr, -, hb, -, hc, -⟩ := writeFrame_ran a d s
  refine ⟨⟨_, _, hr, .inl ⟨rfl, hi⟩⟩, fun hw m hm => ?_, fun _ h => by rw [hb]; exact h, ?_⟩
  · rw [hc] at hm
    exact afterWrite_wf s.par a.toNat d 0 { s.chip with rx := .payload true a.toNat 0 } hw m hm
  · rw [hc]; exact afterWrite_isSome _ _ _ _ _

theorem framesRun_rmw (i : Instr) (hi : ¬ startsConversion i) (a : Addr) (f : Byte → Byte) (s : State) :
    FramesRun i s (rmw a f s) := by
  obtain ⟨x, v, y, z, hr, hb, -, hc, -⟩ := rmw_ran a f s
  refine ⟨⟨_, _, hr, .inl ⟨rfl, hi⟩⟩, fun hw m hm => ?_, fun hp _ => by rw [hb]; exact hp, ?_⟩
  · rw [hc] at hm; exact wrote_wf _ _ _ _ hw m hm
  · rw [hc]; exact stored_isSome _ _ _

theorem framesRun_trigger (i : Instr) (hi : startsConversion i) (s : State) : FramesRun i s (trigger s) := by
  obtain ⟨x0, c0, x1, c1, x2, y, hr, hb, -, hc, -⟩ := trigger_ran s
  refine ⟨⟨_, _, hr, .inr ⟨c0, c1, rfl, hi⟩⟩, fun hw m hm => ?_, fun hp _ => by rw [hb]; exact hp, ?_⟩
  · rw [hc] at hm
    exact wrote_wf s.par s.par.addrCr0.toNat (triggerValue s.par c0) s.chip hw m hm
  · rw [hc]; exact stored_isSome _ _ _

/-- A read frame after the frames of a command that started a conversion. -/
theorem FramesRun.thenRead {i : Instr} {s t : State} (h : FramesRun i s t) (hi : startsConversion i) (a : Addr) (n : Nat)
    (hn : n ≤ s.par.maxCount) : FramesRun i s (readFrame a n t) := by
  obtain ⟨l, ws, hr, hws⟩ := h.ran
  obtain ⟨x, ds, hr', hl, hb, -, hc, -⟩ := readFrame_ran a n t
  refine ⟨⟨_, _, hr.trans hr', ?_⟩, fun hw => targetWf_of_chip (by rw [hc]) (h.target hw),
    fun _ _ => by rw [hb, hl]; exact hn, ?_⟩
  · rcases hws with ⟨-, hn⟩ | ⟨c0, c1, hw, -⟩
    · exact absurd hi hn
    · exact .inr ⟨c0, c1, by simp [hw], hi⟩
  · rw [hc]; exact h.attached

/-- The same frames, whatever is then written to the result and the decoder's registers. -/
theorem FramesRun.congr {i : Instr} {s t u : State} (h : FramesRun i s t) (h1 : u.trace = t.trace) (h2 : u.chip = t.chip)
    (h3 : ReturnsIdle s t → ReturnsIdle s u) (h4 : KeepsHandle t u) (h5 : u.work.rbuf = t.work.rbuf) : FramesRun i s u := by
  obtain ⟨l, ws, hr, hws⟩ := h.ran
  refine ⟨⟨l, ws, ⟨?_, h3 hr.idle, hr.handle.trans h4⟩, hws⟩, fun hw => targetWf_of_chip (by rw [h2]) (h.target hw),
    fun hp hl => by rw [h5]; exact h.buffer hp hl, ?_⟩
  · rw [h1]; exact hr.events
  · rw [h2]; exact h.attached

theorem FramesRun.giveResult {i : Instr} {s t : State} (r : Result) (h : FramesRun i s t) :
    FramesRun i s (giveResult r t) := h.congr rfl rfl (fun h => h) ⟨rfl, rfl, rfl⟩ rfl

theorem FramesRun.decodeLinear {i : Instr} {s t : State} (b0 b1 b2 : Byte) (h : FramesRun i s t) :
    FramesRun i s (decodeLinear b0 b1 b2 t) := h.congr rfl rfl (fun h => h) ⟨rfl, rfl, rfl⟩ rfl

theorem FramesRun.decodeColdJunction {i : Instr} {s t : State} (b0 b1 : Byte) (h : FramesRun i s t) :
    FramesRun i s (decodeColdJunction b0 b1 t) := h.congr rfl rfl (fun h => h) ⟨rfl, rfl, rfl⟩ rfl

/-- The lines BEGIN drives before its frames: chip-select high and, in SW mode, the clock high. -/
theorem idleLines_eq (s : State) :
    idleLines s =
      { s with
        csN := true
        sck := clockAfter s.cfg.mode s.sck
        chip := { s.chip with rx := .idle }
        trace := s.trace ++ (match s.cfg.mode with | .hw => [.cs true] | .sw => [.cs true, .sck true]) } := by
  cases h : s.cfg.mode <;> simp [idleLines, h, driveCs, driveSck, emit, Chip.select, clockAfter]

theorem framesRun_begin (s : State) : FramesRun .beginDev s (setType s.cfg.tcType (idleLines s)) := by
  have hl := idleLines_eq s
  obtain ⟨x, v, y, z, hr, hb, -, hc, -⟩ := rmw_ran s.par.addrCr1 (fun v => insertType v s.cfg.tcType) (idleLines s)
  have hp : (idleLines s).par = s.par := by rw [hl]
  have hcfg : (idleLines s).cfg = s.cfg := by rw [hl]
  have hset : setType s.cfg.tcType (idleLines s) = rmw s.par.addrCr1 (fun v => insertType v s.cfg.tcType) (idleLines s) := by
    rw [setType, hp]
  rw [← hset] at hr hb hc
  clear hset
  generalize setType s.cfg.tcType (idleLines s) = t at hr hb hc ⊢
  obtain ⟨evs, h1, h2, h3, h4⟩ := hr.events
  rw [hcfg] at h3
  refine ⟨⟨.cs true :: linkRmw s.par.addrCr1 x v y (insertType v s.cfg.tcType) z, [], ⟨?_, ?_, ?_⟩, .inl ⟨rfl, ?_⟩⟩, ?_,
    fun hp _ => by rw [hb]; exact hp, ?_⟩
  · cases hm : s.cfg.mode <;> rw [hm] at h3
    · refine ⟨.cs true :: evs, by rw [h1, hl]; simp [hm], fun es => ?_, fun es => ?_, by simpa [delays] using h4⟩
      · simp [h2]
      · exact h3 es
    · refine ⟨.cs true :: .sck true :: evs, by rw [h1, hl]; simp [hm], fun es => ?_, fun es => ?_, by simpa [delays] using h4⟩
      · simp [h2]
      · exact h3 es
  · obtain ⟨a, b, c, d, e⟩ := hr.idle
    rw [hcfg] at d e
    refine ⟨a, b, c, fun hm => ?_, fun hm => ?_⟩
    · have := d hm
      rw [hl] at this
      simpa only [hm, clockAfter] using this
    · have := e hm
      rw [hl] at this
      exact this
  · have := hr.handle
    rw [hl] at this
    exact this
  · rintro (h | h | h) <;> cases h
  · intro hw m hm
    rw [hc] at hm
    exact wrote_wf _ _ _ _ (targetWf_of_chip (by rw [hl]) hw) m hm
  · rw [hc]
    show (Chip.stored _ _ _).isSome = _
    rw [stored_isSome, hl]

/-- Everything a command that completes can have done: XFER's one exchange, a decoder command, or complete frames. -/
theorem exec_cases {i : Instr} {s t : State} (h : exec i s = .next t) :
    (∃ v, i = .xfer v ∧ s.cfg.mode = .sw ∧ t = giveResult (.byte (xfer v s).work.rxsr) (xfer v s)) ∨
    (∃ b0 b1 b2, i = .dectc b0 b1 b2 ∧ t = decodeLinear b0 b1 b2 s) ∨
    (∃ b0 b1, i = .deccj b0 b1 ∧ t = decodeColdJunction b0 b1 s) ∨
    ((∀ v, i ≠ .xfer v) ∧ (∀ b0 b1 b2, i ≠ .dectc b0 b1 b2) ∧ (∀ b0 b1, i ≠ .deccj b0 b1) ∧ FramesRun i s t) := by
  have nc : ∀ i : Instr, i ≠ .trig → i ≠ .rdtc → i ≠ .rdcj → ¬ startsConversion i := by
    rintro i h1 h2 h3 (h | h | h)
    · exact h1 h
    · exact h2 h
    · exact h3 h
  cases i <;> simp only [exec] at h
  case xfer v =>
    simp only [execXfer] at h
    split at h
    · cases h
    · cases h; exact .inl ⟨v, rfl, ‹_›, rfl⟩
  case dectc b0 b1 b2 => cases h; exact .inr (.inl ⟨b0, b1, b2, rfl, rfl⟩)
  case deccj b0 b1 => cases h; exact .inr (.inr (.inl ⟨b0, b1, rfl, rfl⟩))
  all_goals
    refine .inr (.inr (.inr ⟨by simp, by simp, by simp, ?_⟩))
  case rdframe a n =>
    simp only [execRdframe, countChecked] at h
    split at h
    · obtain ⟨rfl, -⟩ := onTarget_inv _ _ _ _ h
      exact framesRun_read _ (nc _ (by simp) (by simp) (by simp)) a n s fun _ => ‹_›
    · cases h
  case wrframe a d =>
    simp only [execWrframe, countChecked] at h
    split at h
    · obtain ⟨rfl, -⟩ := onTarget_inv _ _ _ _ h
      exact framesRun_write _ (nc _ (by simp) (by simp) (by simp)) a d s
    · cases h
  case rdregs a n =>
    simp only [execRdregs, countChecked] at h
    split at h
    · obtain ⟨rfl, -⟩ := onTarget_inv _ _ _ _ h
      exact (framesRun_read _ (nc _ (by simp) (by simp) (by simp)) a n s fun _ => ‹_›).giveResult _
    · cases h
  case wrregs a d =>
    simp only [execWrregs, countChecked] at h
    split at h
    · obtain ⟨rfl, -⟩ := onTarget_inv _ _ _ _ h
      exact (framesRun_write _ (nc _ (by simp) (by simp) (by simp)) a d s).giveResult _
    · cases h
  case rdtc =>
    simp only [execRdtc, countChecked] at h
    split at h
    · obtain ⟨rfl, -⟩ := onTarget_inv _ _ _ _ h
      exact ((framesRun_trigger _ (.inr (.inl rfl)) s).thenRead (.inr (.inl rfl)) _ _ ‹_›).decodeLinear _ _ _
    · cases h
  case rdcj =>
    simp only [execRdcj, countChecked] at h
    split at h
    · obtain ⟨rfl, -⟩ := onTarget_inv _ _ _ _ h
      exact ((framesRun_trigger _ (.inr (.inr rfl)) s).thenRead (.inr (.inr rfl)) _ _ ‹_›).decodeColdJunction _ _
    · cases h
  all_goals
    obtain ⟨rfl, -⟩ := onTarget_inv _ _ _ _ h
  case beginDev => exact (framesRun_begin s).giveResult _
  case trig => exact (framesRun_trigger _ (.inl rfl) s).giveResult _
  case settc ty => exact (framesRun_rmw _ (nc _ (by simp) (by simp) (by simp)) _ _ s).giveResult _
  case setavg sel => exact (framesRun_rmw _ (nc _ (by simp) (by simp) (by simp)) _ _ s).giveResult _
  case setnf f => exact (framesRun_rmw _ (nc _ (by simp) (by simp) (by simp)) _ _ s).giveResult _
  case wrreg a d => exact (framesRun_write _ (nc _ (by simp) (by simp) (by simp)) _ _ s).giveResult _
  all_goals exact (framesRun_read _ (nc _ (by simp) (by simp) (by simp)) _ _ s fun hp => hp).giveResult _

/-- What a step that goes on is: waiting, or an accepted instruction at the state without it. -/
theorem step_cases {s t : State} (h : step s = .next t) :
    (s.host = [] ∧ t = s) ∨ ∃ p rest i, s.host = p :: rest ∧ s.phase = .idle ∧ decode p = .ok i ∧
      exec i { s with host := rest } = .next t := by
  unfold step fetch at h
  cases hh : s.host with
  | nil => simp only [hh] at h; cases h; exact .inl ⟨rfl, rfl⟩
  | cons p rest =>
    simp only [hh] at h
    by_cases hp : s.phase = .idle
    · simp only [hp, if_true] at h
      cases hd : decode p with
      | error r => simp only [hd] at h; cases h
      | ok i =>
        simp only [hd] at h
        rw [← hp] at h
        exact .inr ⟨p, rest, i, rfl, hp, hd, h⟩
    · simp only [hp, if_false] at h; cases h

end Sys2Proof.Machine
end

