-- ==== Sys2Proof/Laws/Agree.lean ====
section
/-! SUPPORT. Two states that agree on everything but the working registers, RESULT and the data-out line: every shared
operation keeps them so, and captures the same bytes (10_state.md R20). -/

namespace Sys2Proof.Machine

/-- Equal but for the working registers, RESULT and MOSI. -/
structure Agree (s t : State) : Prop where
  cfg : t.cfg = s.cfg
  par : t.par = s.par
  phase : t.phase = s.phase
  busHeld : t.busHeld = s.busHeld
  csN : t.csN = s.csN
  sck : t.sck = s.sck
  chip : t.chip = s.chip
  env : t.env = s.env
  trace : t.trace = s.trace
  host : t.host = s.host

theorem Agree.readFrame {s t : State} (h : Agree s t) (a : Addr) (n : Nat) :
    Agree (readFrame a n s) (readFrame a n t) ∧ (readFrame a n t).work.rbuf = (readFrame a n s).work.rbuf := by
  obtain ⟨w, h1, b1, -⟩ := readFrame_eq a n s
  obtain ⟨w', h2, b2, -⟩ := readFrame_eq a n t
  obtain ⟨e1, e2, -, e4, -, e6, e7, e8, e9, e10⟩ := h
  rw [h1, h2]
  refine ⟨⟨?_, ?_, ?_, ?_, ?_, ?_, ?_, ?_, ?_, ?_⟩, ?_⟩ <;> simp only [e1, e2, e4, e6, e7, e8, e9, e10, b1, b2]

theorem Agree.writeFrame {s t : State} (h : Agree s t) (a : Addr) (d : List Byte) :
    Agree (writeFrame a d s) (writeFrame a d t) := by
  obtain ⟨w, h1, -⟩ := writeFrame_eq a d s
  obtain ⟨w', h2, -⟩ := writeFrame_eq a d t
  obtain ⟨e1, e2, -, e4, -, e6, e7, e8, e9, e10⟩ := h
  rw [h1, h2]
  refine ⟨?_, ?_, ?_, ?_, ?_, ?_, ?_, ?_, ?_, ?_⟩ <;> simp only [e1, e2, e4, e6, e7, e8, e9, e10]

theorem rbufByte_congr {s t : State} (h : t.work.rbuf = s.work.rbuf) (k : Nat) : t.rbufByte k = s.rbufByte k := by
  rw [State.rbufByte, h]; rfl

theorem Agree.rmw {s t : State} (h : Agree s t) (a : Addr) (f : Byte → Byte) : Agree (rmw a f s) (rmw a f t) := by
  obtain ⟨h1, h2⟩ := h.readFrame a 1
  simp only [Machine.rmw, rbufByte_congr h2]
  exact h1.writeFrame a _

theorem Agree.waited {s t : State} (h : Agree s t) (w : Nat) :
    Agree (setPhase .idle (delay w (setPhase .wait s))) (setPhase .idle (delay w (setPhase .wait t))) := by
  obtain ⟨e1, e2, -, e4, e5, e6, e7, e8, e9, e10⟩ := h
  exact ⟨e1, e2, rfl, e4, e5, e6, by simp only [setPhase_chip, delay_chip, e7], e8,
    by simp only [setPhase_trace, delay_trace, e9], e10⟩

theorem Agree.trigger {s t : State} (h : Agree s t) : Agree (trigger s) (trigger t) := by
  obtain ⟨h1, b1⟩ := h.readFrame s.par.addrCr0 1
  obtain ⟨h2, b2⟩ := h1.readFrame (Machine.readFrame s.par.addrCr0 1 s).par.addrCr1 1
  have h3 := h2.writeFrame
    (Machine.readFrame (Machine.readFrame s.par.addrCr0 1 s).par.addrCr1 1 (Machine.readFrame s.par.addrCr0 1 s)).par.addrCr0
    [triggerValue
      (Machine.readFrame (Machine.readFrame s.par.addrCr0 1 s).par.addrCr1 1 (Machine.readFrame s.par.addrCr0 1 s)).par
      ((Machine.readFrame s.par.addrCr0 1 s).rbufByte 0)]
  simp only [Machine.trigger, h.par, h1.par, h2.par, rbufByte_congr b1, rbufByte_congr b2]
  exact h3.waited _

theorem Agree.xfer {s t : State} (h : Agree s t) (v : Byte) :
    Agree (xfer v s) (xfer v t) ∧ (xfer v t).work.rxsr = (xfer v s).work.rxsr := by
  obtain ⟨e1, e2, e3, e4, e5, e6, e7, e8, e9, e10⟩ := h
  rw [xfer_eq, xfer_eq]
  refine ⟨⟨?_, ?_, ?_, ?_, ?_, ?_, ?_, ?_, ?_, ?_⟩, ?_⟩ <;>
    simp only [exchanged, e1, e2, e3, e4, e5, e6, e7, e8, e9, e10]

theorem Agree.idleLines {s t : State} (h : Agree s t) : Agree (idleLines s) (idleLines t) := by
  obtain ⟨e1, e2, e3, e4, -, e6, e7, e8, e9, e10⟩ := h
  rw [idleLines_eq, idleLines_eq]
  refine ⟨?_, ?_, ?_, ?_, ?_, ?_, ?_, ?_, ?_, ?_⟩ <;> simp only [e1, e2, e3, e4, e6, e7, e8, e9, e10]

theorem Agree.giveResult {s t : State} (h : Agree s t) (r : Result) : Agree (giveResult r s) (giveResult r t) := by
  obtain ⟨e1, e2, e3, e4, e5, e6, e7, e8, e9, e10⟩ := h
  exact ⟨e1, e2, e3, e4, e5, e6, e7, e8, e9, e10⟩

theorem Agree.decodeLinear {s t : State} (h : Agree s t) (b0 b1 b2 : Byte) :
    Agree (decodeLinear b0 b1 b2 s) (decodeLinear b0 b1 b2 t) := by
  obtain ⟨e1, e2, e3, e4, e5, e6, e7, e8, e9, e10⟩ := h
  exact ⟨e1, e2, e3, e4, e5, e6, e7, e8, e9, e10⟩

theorem Agree.decodeColdJunction {s t : State} (h : Agree s t) (b0 b1 : Byte) :
    Agree (decodeColdJunction b0 b1 s) (decodeColdJunction b0 b1 t) := by
  obtain ⟨e1, e2, e3, e4, e5, e6, e7, e8, e9, e10⟩ := h
  exact ⟨e1, e2, e3, e4, e5, e6, e7, e8, e9, e10⟩

theorem Agree.onTarget {s t : State} (h : Agree s t) (fs : List (Addr × Nat)) (u : State) :
    onTarget fs t u = if fs.all (fun f => s.onMap f.1 f.2) then .next u else .refused .offTargetMap := by
  unfold Machine.onTarget State.onMap
  rw [h.chip]

end Sys2Proof.Machine
end

