-- ==== Sys2Proof/Laws/Decode.lean ====
section
/-! SUPPORT. The address byte: its flag, its address, and that nothing else is in it (30_encoding.md R56, R64). -/

namespace Sys2Proof

theorem readAddressByte_flag (a : Addr) : (readAddressByte a).getLsbD 7 = false := by revert a; decide

theorem writeAddressByte_flag (a : Addr) : (writeAddressByte a).getLsbD 7 = true := by revert a; decide

theorem readAddressByte_of (b : Byte) : b.getLsbD 7 = false → readAddressByte (addressOf b) = b := by revert b; decide

theorem writeAddressByte_of (b : Byte) : b.getLsbD 7 = true → writeAddressByte (addressOf b) = b := by revert b; decide

end Sys2Proof
end

