-- ==== Sys2Proof/Laws/Operands.lean ====
section
/-! SUPPORT. The operand forms as arithmetic: the fields of CR0 and CR1, and the decoder's codes. -/

namespace Sys2Proof.Machine

theorem insertType_toNat (v : Byte) (t : BitVec 4) : (insertType v t).toNat = v.toNat / 16 * 16 + t.toNat := by
  revert v t; decide

theorem insertSelector_toNat (v : Byte) (sel : BitVec 3) :
    (insertSelector v sel).toNat = v.toNat / 128 * 128 + sel.toNat * 16 + v.toNat % 16 := by
  revert v sel; decide

theorem insertFilter_toNat (v : Byte) (f : Bit) : (insertFilter v f).toNat = v.toNat / 2 * 2 + (if f then 1 else 0) := by
  revert v f; decide

theorem extractType_toNat (v : Byte) : (extractType v).toNat = v.toNat % 16 := by revert v; decide

theorem extractSelector_eq (v : Byte) : extractSelector v = v.toNat / 16 % 8 := by revert v; decide

theorem extractFilter_eq (v : Byte) : extractFilter v = decide (v.toNat % 2 = 1) := by revert v; decide

theorem shiftLeft_or (a b k : Nat) (h : b < 2 ^ k) : (a <<< k) ||| b = a * 2 ^ k + b := by
  rw [Nat.shiftLeft_eq, Nat.mul_comm, ← Nat.two_pow_add_eq_or_of_lt h]

theorem raw16_eq (b0 b1 : Byte) : raw16 b0 b1 = b0.toNat * 256 + b1.toNat := by
  rw [raw16, shiftLeft_or _ _ 8 b1.isLt]; norm_num

theorem reserved_cleared (b2 : Byte) : (b2 &&& ~~~Config.tcReservedMask).toNat = b2.toNat / 32 * 32 := by
  revert b2; decide

theorem raw24_eq (b0 b1 b2 : Byte) : raw24 b0 b1 b2 = b0.toNat * 65536 + b1.toNat * 256 + b2.toNat / 32 * 32 := by
  rw [raw24, reserved_cleared]
  have h1 := b1.isLt
  have h2 := b2.isLt
  rw [Nat.or_assoc, shiftLeft_or b1.toNat _ 8 (by omega), shiftLeft_or b0.toNat _ 16 (by omega)]
  omega

/-- The scaled code, without shifts (41_decoder.md R93). -/
theorem linearUnits_eq (b0 b1 b2 : Byte) :
    linearUnits b0 b1 b2 =
      (b0.toNat * 2048 + b1.toNat * 8 + b2.toNat / 32 : Int) - (if b0.toNat < 128 then 0 else 2 ^ 19) := by
  have h0 := b0.isLt
  have h1 := b1.isLt
  have h2 := b2.isLt
  rw [linearUnits, Int.shiftRight_eq_div_pow, show Config.tcShift = 5 from rfl, sext, raw24_eq]
  split <;> split <;> omega

end Sys2Proof.Machine
end

