-- ==== Sys2Proof/Laws/PerInstr.lean ====
section
/-! SUPPORT. One statement about every instruction as syntax, proved constructor by constructor: the byte count that
well-formedness bounds is the count that stands on the command port, or in the frame, the instruction encodes to. -/

namespace Sys2Proof.Laws.CountOnPort

open Sys2Proof

/-- The byte count of what is presented: the N port of RDREGS, the length of WRREGS's list, the payload of a wire frame; the
other commands have none (30_encoding.md R57, R58, R63). -/
def presentedCount (p : Presented) : Nat :=
  match p with
  | .frame bytes => bytes.length - 1
  | .command q => if q.op = 0x02#5 then q.n else if q.op = 0x04#5 then q.d.length else 0

/-- Well-formedness bounds the presented count, and nothing else. -/
def Statement (i : Instr) : Prop :=
  ∀ maxCount : Nat, i.wellFormed maxCount = true ↔ presentedCount (encode i) ≤ maxCount

theorem rdframe (a : Addr) (n : Nat) : Statement (.rdframe a n) := by simp [Statement, Instr.wellFormed, presentedCount, encode]
theorem wrframe (a : Addr) (d : List Byte) : Statement (.wrframe a d) := by
  simp [Statement, Instr.wellFormed, presentedCount, encode]
theorem xfer (v : Byte) : Statement (.xfer v) := by simp [Statement, Instr.wellFormed, presentedCount, encode, port]
theorem rdreg (a : Addr) : Statement (.rdreg a) := by simp [Statement, Instr.wellFormed, presentedCount, encode, port]
theorem rdregs (a : Addr) (n : Nat) : Statement (.rdregs a n) := by
  simp [Statement, Instr.wellFormed, presentedCount, encode, port]
theorem wrreg (a : Addr) (d : Byte) : Statement (.wrreg a d) := by
  simp [Statement, Instr.wellFormed, presentedCount, encode, port]
theorem wrregs (a : Addr) (d : List Byte) : Statement (.wrregs a d) := by
  simp [Statement, Instr.wellFormed, presentedCount, encode, port]
theorem dectc (b0 b1 b2 : Byte) : Statement (.dectc b0 b1 b2) := by
  simp [Statement, Instr.wellFormed, presentedCount, encode, port]
theorem deccj (b0 b1 : Byte) : Statement (.deccj b0 b1) := by
  simp [Statement, Instr.wellFormed, presentedCount, encode, port]
theorem beginDev : Statement .beginDev := by simp [Statement, Instr.wellFormed, presentedCount, encode, port]
theorem settc (t : BitVec 4) : Statement (.settc t) := by simp [Statement, Instr.wellFormed, presentedCount, encode, port]
theorem gettc : Statement .gettc := by simp [Statement, Instr.wellFormed, presentedCount, encode, port]
theorem setavg (sel : BitVec 3) : Statement (.setavg sel) := by
  simp [Statement, Instr.wellFormed, presentedCount, encode, port]
theorem getavg : Statement .getavg := by simp [Statement, Instr.wellFormed, presentedCount, encode, port]
theorem setnf (f : Bit) : Statement (.setnf f) := by simp [Statement, Instr.wellFormed, presentedCount, encode, port]
theorem getnf : Statement .getnf := by simp [Statement, Instr.wellFormed, presentedCount, encode, port]
theorem trig : Statement .trig := by simp [Statement, Instr.wellFormed, presentedCount, encode, port]
theorem rdtc : Statement .rdtc := by simp [Statement, Instr.wellFormed, presentedCount, encode, port]
theorem rdcj : Statement .rdcj := by simp [Statement, Instr.wellFormed, presentedCount, encode, port]
theorem rdfault : Statement .rdfault := by simp [Statement, Instr.wellFormed, presentedCount, encode, port]

end Sys2Proof.Laws.CountOnPort
end

