-- ==== Sys2Proof/Tests/Slice0.lean ====
section
/-! SUPPORT. Small tests, their expected values taken from the spec's encodings and its test vectors (95_test_vectors.md), and
the witnesses of the obligations' hypotheses. -/

namespace Sys2Proof.Tests

open Sys2Proof Sys2Proof.Machine

set_option maxRecDepth 20000

/-! ### States -/

/-- A test target's array from its bytes, address 0x00 first. -/
def target (bytes : List Byte) : Memory := (bytes.zipIdx).foldl (fun m x => m.write x.2 x.1) []

/-- SW mode, the test target attached, every unsettled sample low. -/
def swWith (bytes : List Byte) : State :=
  { State.reset with chip := ⟨.idle, .idle, some (target bytes)⟩, env := ⟨List.replicate 400 false, [], 0⟩ }

/-- HW mode with thermocouple type 3, the test target attached, every unsettled byte 0x00. -/
def hwWith (bytes : List Byte) : State :=
  { State.reset with
    cfg := ⟨.hw, 0, 0x3#4, Config.busSettings⟩
    chip := ⟨.idle, .idle, some (target bytes)⟩
    env := ⟨[], List.replicate 40 0x00#8, 0⟩ }

/-- HW mode, no test target: every byte received is `b`. -/
def hwDead (b : Byte) : State :=
  { State.reset with cfg := ⟨.hw, 0, 0x3#4, Config.busSettings⟩, env := ⟨[], List.replicate 40 b, 0⟩ }

/-- SW mode, no test target, the samples given. -/
def swTape (bits : List Bit) : State := { State.reset with env := ⟨bits, [], 0⟩ }

/-- The start state of V7 to V9c. -/
def bytesV7 : List Byte :=
  [0x00#8, 0x23#8, 0x00#8, 0x00#8, 0x00#8, 0x00#8, 0x00#8, 0x00#8, 0x00#8, 0x00#8, 0x19#8, 0x80#8, 0x01#8, 0x90#8, 0x00#8, 0x01#8]

/-- The start state of program P2. -/
def bytesP2 : List Byte :=
  [0x01#8, 0x23#8, 0x00#8, 0x00#8, 0x00#8, 0x00#8, 0x00#8, 0x00#8, 0x00#8, 0x00#8, 0x19#8, 0x80#8, 0xFE#8, 0x70#8, 0x00#8, 0x00#8]

/-- The result a command hands back. -/
def resultOf (o : Host.Outcome State Fault Refusal) : Option Result :=
  match o with
  | .next t => some t.result
  | _ => none

/-- A byte of the test target after a command. -/
def peekOf (o : Host.Outcome State Fault Refusal) (a : Nat) : Option Byte :=
  match o with
  | .next t => t.peek a
  | _ => none

/-- The byte-level view of a command's events. -/
def viewOf (o : Host.Outcome State Fault Refusal) : List ByteEvent :=
  match o with
  | .next t => byteTrace t.trace
  | _ => []

/-- The bytes sent, and the waits, in order. -/
def sentOf (o : Host.Outcome State Fault Refusal) : List Nat :=
  (viewOf o).filterMap fun e => match e with
    | .xfer v _ => some v.toNat
    | .delay w => some w
    | _ => none

/-- One command after another. -/
def thenDo (o : Host.Outcome State Fault Refusal) (i : Instr) : Host.Outcome State Fault Refusal :=
  match o with
  | .next t => exec i t
  | other => other

/-- The refusal a command ends in. -/
def refusalOf (o : Host.Outcome State Fault Refusal) : Option Refusal :=
  match o with
  | .refused r => some r
  | _ => none

/-! ### Well-formedness: each count check refuses an ill-formed term (MAX_COUNT = 16) -/

theorem test_wf_rdframe : (Instr.rdframe 0x00#7 17).wellFormed 16 = false ∧ (Instr.rdframe 0x00#7 16).wellFormed 16 = true := by decide
theorem test_wf_wrframe :
    (Instr.wrframe 0x00#7 (List.replicate 17 0x00#8)).wellFormed 16 = false ∧
      (Instr.wrframe 0x00#7 (List.replicate 16 0x00#8)).wellFormed 16 = true := by decide
theorem test_wf_rdregs : (Instr.rdregs 0x0C#7 17).wellFormed 16 = false ∧ (Instr.rdregs 0x0C#7 0).wellFormed 16 = true := by decide
theorem test_wf_wrregs :
    (Instr.wrregs 0x05#7 (List.replicate 17 0xFF#8)).wellFormed 16 = false ∧ (Instr.wrregs 0x05#7 []).wellFormed 16 = true := by decide

/-! ### Decoding: one word for every row, written out bit by bit from 30_encoding.md R56 to R58 and R63 -/

theorem test_decode_rdframe : decode (.frame [0b00001100#8, 0b11111111#8]) = .ok (.rdframe 0b0001100#7 1) := by decide
theorem test_decode_wrframe : decode (.frame [0b10000001#8, 0b00000011#8]) = .ok (.wrframe 0b0000001#7 [0x03#8]) := by decide
theorem test_decode_transport :
    decode (.command ⟨0b00000#5, 0#7, 0, [0xA5#8], 0#4, 0#3, false⟩) = .ok (.xfer 0xA5#8) ∧
    decode (.command ⟨0b00001#5, 0x01#7, 0, [], 0#4, 0#3, false⟩) = .ok (.rdreg 0x01#7) ∧
    decode (.command ⟨0b00010#5, 0x0C#7, 3, [], 0#4, 0#3, false⟩) = .ok (.rdregs 0x0C#7 3) ∧
    decode (.command ⟨0b00011#5, 0x01#7, 0, [0x03#8], 0#4, 0#3, false⟩) = .ok (.wrreg 0x01#7 0x03#8) ∧
    decode (.command ⟨0b00100#5, 0x05#7, 0, [0x7F#8, 0xFF#8], 0#4, 0#3, false⟩) = .ok (.wrregs 0x05#7 [0x7F#8, 0xFF#8]) := by
  decide
theorem test_decode_decoder :
    decode (.command ⟨0b01000#5, 0#7, 0, [0x01#8, 0x90#8, 0x00#8], 0#4, 0#3, false⟩) = .ok (.dectc 0x01#8 0x90#8 0x00#8) ∧
    decode (.command ⟨0b01001#5, 0#7, 0, [0x19#8, 0x00#8], 0#4, 0#3, false⟩) = .ok (.deccj 0x19#8 0x00#8) := by decide
theorem test_decode_controller :
    decode (.command ⟨0b10000#5, 0#7, 0, [], 0#4, 0#3, false⟩) = .ok .beginDev ∧
    decode (.command ⟨0b10001#5, 0#7, 0, [], 0x7#4, 0#3, false⟩) = .ok (.settc 0x7#4) ∧
    decode (.command ⟨0b10010#5, 0#7, 0, [], 0#4, 0#3, false⟩) = .ok .gettc ∧
    decode (.command ⟨0b10011#5, 0#7, 0, [], 0#4, 4#3, false⟩) = .ok (.setavg 4#3) ∧
    decode (.command ⟨0b10100#5, 0#7, 0, [], 0#4, 0#3, false⟩) = .ok .getavg ∧
    decode (.command ⟨0b10101#5, 0#7, 0, [], 0#4, 0#3, true⟩) = .ok (.setnf true) ∧
    decode (.command ⟨0b10110#5, 0#7, 0, [], 0#4, 0#3, false⟩) = .ok .getnf ∧
    decode (.command ⟨0b10111#5, 0#7, 0, [], 0#4, 0#3, false⟩) = .ok .trig ∧
    decode (.command ⟨0b11000#5, 0#7, 0, [], 0#4, 0#3, false⟩) = .ok .rdtc ∧
    decode (.command ⟨0b11001#5, 0#7, 0, [], 0#4, 0#3, false⟩) = .ok .rdcj ∧
    decode (.command ⟨0b11010#5, 0#7, 0, [], 0#4, 0#3, false⟩) = .ok .rdfault := by decide

/-- Rejections by name: a reserved code (V9j), a data list of the wrong length, an empty frame, a read frame of other bytes. -/
theorem test_decode_rejects :
    decode (.command (port 0x05#5)) = .error (.reservedOp 0x05#5) ∧
    decode (.command (port 0x1F#5)) = .error (.reservedOp 0x1F#5) ∧
    decode (.command (port 0x00#5)) = .error (.dataLength 0x00#5) ∧
    decode (.frame []) = .error .noAddressByte ∧
    decode (.frame [0x01#8, 0x00#8]) = .error .readPayloadNotDummy := by decide

/-- The opcode table's numbering (log 12). -/
theorem test_table_words :
    decodeTableWord 8 0x18 = some .rdtc ∧ decodeTableWord 8 0x08 = some (.dectc 0#8 0#8 0#8) ∧
    decodeTableWord 8 0x7F = some (.rdframe 0x7F#7 0) ∧ decodeTableWord 8 0x8F = some (.wrframe 0x0F#7 []) ∧
    decodeTableWord 16 0x0381 = some (.wrframe 0x01#7 [0x03#8]) ∧ decodeTableWord 8 0x1F = none := by decide

/-- The word presented runs as the first command after reset, and what the host had presented is gone. -/
theorem test_fetch_runs_first : step (State.reset.withFetchWord 8 0x12) = exec .gettc State.reset := rfl

/-- R72's written form. -/
theorem test_text :
    (Instr.rdregs 0x0C#7 3).text = "RDREGS 0x0C, 3" ∧ (Instr.wrregs 0x05#7 [0x7F#8, 0xFF#8]).text = "WRREGS 0x05, [0x7F, 0xFF]" ∧
    (Instr.setavg 4#3).text = "SETAVG 4" := by decide

/-! ### The wire frames and the transport commands -/

/-- The frame of V8, asked of the framing engine itself: nothing is handed back, RBUF holds the payload. -/
theorem test_rdframe :
    sentOf (exec (.rdframe 0x0C#7 3) (swWith bytesV7)) = [0x0C, 0xFF, 0xFF, 0xFF] ∧
    resultOf (exec (.rdframe 0x0C#7 3) (swWith bytesV7)) = some .nothing := by decide
/-- The frame of V9b. -/
theorem test_wrframe :
    sentOf (exec (.wrframe 0x05#7 [0x7F#8, 0xFF#8]) (hwWith bytesV7)) = [0x85, 0x7F, 0xFF] ∧
    peekOf (exec (.wrframe 0x05#7 [0x7F#8, 0xFF#8]) (hwWith bytesV7)) 0x06 = some 0xFF#8 := by decide
/-- V2: least significant bit first, out and in. -/
theorem test_xfer_V2 :
    (match exec (.xfer 0x8F#8) (swTape [false, true, false, false, true, true, false, false]) with
      | .next t => (dataOut t.trace, t.result, t.work.bitCnt, t.mosi, t.sck)
      | _ => ([], .nothing, 0, false, false))
      = ([true, true, true, true, false, false, false, true], .byte 0x32#8, 8, true, true) := by decide
/-- V5: a one at pulse 7 only is 0x80. -/
theorem test_xfer_V5 :
    resultOf (exec (.xfer 0x00#8) (swTape [false, false, false, false, false, false, false, true])) = some (.byte 0x80#8) := by decide
/-- V7h. -/
theorem test_rdreg_V7h :
    viewOf (exec (.rdreg 0x01#7) (hwWith bytesV7)) =
      [.busBegin Config.busSettings, .cs false, .xfer 0x01#8 0x00#8, .xfer 0xFF#8 0x23#8, .cs true, .busEnd] ∧
    resultOf (exec (.rdreg 0x01#7) (hwWith bytesV7)) = some (.byte 0x23#8) := by decide
/-- V9g: a read off the map is refused under the test target only. -/
theorem test_rdreg_V9g :
    refusalOf (exec (.rdreg 0x10#7) (swWith bytesV7)) = some .offTargetMap ∧
    sentOf (exec (.rdreg 0x10#7) (hwDead 0x5A#8)) = [0x10, 0xFF] ∧
    resultOf (exec (.rdreg 0x10#7) (hwDead 0x5A#8)) = some (.byte 0x5A#8) := by decide
/-- V8, at the byte level, in SW mode. -/
theorem test_rdregs_V8 :
    viewOf (exec (.rdregs 0x0C#7 3) (swWith bytesV7)) =
      [.cs false, .xfer 0x0C#8 0x00#8, .xfer 0xFF#8 0x01#8, .xfer 0xFF#8 0x90#8, .xfer 0xFF#8 0x00#8, .cs true] ∧
    resultOf (exec (.rdregs 0x0C#7 3) (swWith bytesV7)) = some (.bytes [0x01#8, 0x90#8, 0x00#8]) := by decide
/-- V9d and V9f: no payload; a count above MAX_COUNT. -/
theorem test_rdregs_V9d_V9f :
    viewOf (exec (.rdregs 0x0F#7 0) (hwWith bytesV7)) =
      [.busBegin Config.busSettings, .cs false, .xfer 0x0F#8 0x00#8, .cs true, .busEnd] ∧
    refusalOf (exec (.rdregs 0x00#7 17) (hwWith bytesV7)) = some (.countAboveMax 17) := by decide
/-- V9. -/
theorem test_wrreg_V9 :
    sentOf (exec (.wrreg 0x01#7 0x03#8) (swWith bytesV7)) = [0x81, 0x03] ∧
    peekOf (exec (.wrreg 0x01#7 0x03#8) (swWith bytesV7)) 0x01 = some 0x03#8 ∧
    peekOf (exec (.wrreg 0x01#7 0x03#8) (swWith bytesV7)) 0x0F = some 0x01#8 := by decide
/-- P3, command 1: the payload 0x03 leaves least significant bit first. -/
theorem test_wrreg_P3 :
    (match exec (.wrreg 0x01#7 0x03#8) (swWith []) with
      | .next t => dataOut t.trace
      | _ => []) =
      [true, false, false, false, false, false, false, true, true, true, false, false, false, false, false, false] := by decide
/-- V9b. -/
theorem test_wrregs_V9b :
    sentOf (exec (.wrregs 0x05#7 [0x7F#8, 0xFF#8]) (hwWith bytesV7)) = [0x85, 0x7F, 0xFF] ∧
    peekOf (exec (.wrregs 0x05#7 [0x7F#8, 0xFF#8]) (hwWith bytesV7)) 0x05 = some 0x7F#8 ∧
    peekOf (exec (.wrregs 0x05#7 [0x7F#8, 0xFF#8]) (hwWith bytesV7)) 0x06 = some 0xFF#8 := by decide

/-! ### The decoder -/

/-- V16b and V18: mask first; the sign comes from bit 7 of b0. -/
theorem test_dectc_negative :
    resultOf (exec (.dectc 0xFF#8 0xFF#8 0xFF#8) State.reset) = some (.float (mkRat (-1) 128)) ∧
    resultOf (exec (.dectc 0xFE#8 0x70#8 0x00#8) State.reset) = some (.float (-25)) := by decide
/-- V14c and V15b. -/
theorem test_dectc_positive :
    resultOf (exec (.dectc 0x01#8 0x90#8 0x5A#8) State.reset) = some (.float (mkRat 3202 128)) ∧
    resultOf (exec (.dectc 0x06#8 0x4F#8 0x00#8) State.reset) = some (.float (mkRat 12920 128)) := by decide
/-- V21 and V27. -/
theorem test_deccj :
    resultOf (exec (.deccj 0x19#8 0x00#8) State.reset) = some (.float 25) ∧
    resultOf (exec (.deccj 0xE7#8 0x40#8) State.reset) = some (.float (mkRat (-6336) 256)) := by decide
/-- The contrast table: b1 = 0x04 tells the corrected composition from the driver's. -/
theorem test_deccj_contrast :
    resultOf (exec (.deccj 0x19#8 0x04#8) State.reset) = some (.float (mkRat 6404 256)) := by decide

/-! ### The controller -/

/-- P1, command 1. -/
theorem test_begin_P1 :
    viewOf (exec .beginDev (hwWith [])) =
      [.cs true, .busBegin Config.busSettings, .cs false, .xfer 0x01#8 0x00#8, .xfer 0xFF#8 0x00#8, .cs true, .busEnd,
       .busBegin Config.busSettings, .cs false, .xfer 0x81#8 0x00#8, .xfer 0x03#8 0x00#8, .cs true, .busEnd] ∧
    peekOf (exec .beginDev (hwWith [])) 0x01 = some 0x03#8 := by decide
/-- V32, V31. -/
theorem test_settc :
    peekOf (exec (.settc 0x7#4) (swWith [0x00#8, 0x43#8])) 0x01 = some 0x47#8 ∧
    peekOf (exec (.settc 0x0#4) (hwWith [0x00#8, 0xFF#8])) 0x01 = some 0xF0#8 := by decide
/-- V33: SETTC, then GETTC. -/
theorem test_gettc : resultOf (thenDo (exec (.settc 0xC#4) (hwWith [0x00#8, 0xF0#8])) .gettc) = some (.tcType 0xC#4) := by decide
/-- V45 and V48: bit 7 and the type survive. -/
theorem test_setavg :
    peekOf (exec (.setavg 4#3) (hwWith [0x00#8, 0x83#8])) 0x01 = some 0xC3#8 ∧
    peekOf (exec (.setavg 0#3) (hwWith [0x00#8, 0xFF#8])) 0x01 = some 0x8F#8 := by decide
/-- V73: on a bus stuck high SETAVG 2 writes CR1 = 0xAF. -/
theorem test_setavg_V73 : sentOf (exec (.setavg 2#3) (hwDead 0xFF#8)) = [0x01, 0xFF, 0x81, 0xAF] := by decide
/-- GETAVG alone: 0x60 is 16, 0xB0 is 8. -/
theorem test_getavg :
    resultOf (exec .getavg (hwWith [0x00#8, 0x60#8])) = some (.count 16) ∧
    resultOf (exec .getavg (hwWith [0x00#8, 0xB0#8])) = some (.count 8) := by decide
/-- V54 and V53. -/
theorem test_setnf :
    peekOf (exec (.setnf true) (hwWith [0x90#8])) 0x00 = some 0x91#8 ∧
    peekOf (exec (.setnf false) (hwWith [0xFF#8])) 0x00 = some 0xFE#8 := by decide
/-- R108's example, and V56's value. -/
theorem test_getnf :
    resultOf (exec .getnf (hwWith [0x91#8])) = some (.bit true) ∧ resultOf (exec .getnf (hwWith [0x40#8])) = some (.bit false) := by
  decide
/-- V62: auto-convert cleared, four samples at 60 Hz. -/
theorem test_trig_V62 :
    sentOf (exec .trig (hwWith [0x80#8, 0x23#8])) = [0x00, 0xFF, 0x01, 0xFF, 0x80, 0x40, 257] := by decide
/-- V65: the other bits of CR0 kept, bit 7 and the type of CR1 ignored. -/
theorem test_trig_V65 :
    sentOf (exec .trig (hwWith [0x3E#8, 0x8F#8])) = [0x00, 0xFF, 0x01, 0xFF, 0x80, 0x7E, 155] := by decide
/-- P2, command 1. -/
theorem test_rdtc_P2 :
    sentOf (exec .rdtc (swWith bytesP2)) = [0x00, 0xFF, 0x01, 0xFF, 0x80, 0x41, 305, 0x0C, 0xFF, 0xFF, 0xFF] ∧
    resultOf (exec .rdtc (swWith bytesP2)) = some (.float (-25)) ∧ peekOf (exec .rdtc (swWith bytesP2)) 0x00 = some 0x41#8 := by
  decide
/-- V70: a stuck-high bus. -/
theorem test_rdtc_V70 :
    sentOf (exec .rdtc (hwDead 0xFF#8)) = [0x00, 0xFF, 0x01, 0xFF, 0x80, 0x7F, 785, 0x0C, 0xFF, 0xFF, 0xFF] ∧
    resultOf (exec .rdtc (hwDead 0xFF#8)) = some (.float (mkRat (-1) 128)) := by decide
/-- P2, command 2, and V71. -/
theorem test_rdcj :
    sentOf (exec .rdcj (swWith bytesP2)) = [0x00, 0xFF, 0x01, 0xFF, 0x80, 0x41, 305, 0x0A, 0xFF, 0xFF] ∧
    resultOf (exec .rdcj (swWith bytesP2)) = some (.float (mkRat 6528 256)) ∧
    resultOf (exec .rdcj (hwDead 0xFF#8)) = some (.float (mkRat (-1) 256)) := by decide
/-- R118's example. -/
theorem test_rdfault :
    viewOf (exec .rdfault (swWith bytesV7)) = [.cs false, .xfer 0x0F#8 0x00#8, .xfer 0xFF#8 0x01#8, .cs true] ∧
    resultOf (exec .rdfault (swWith bytesV7)) = some (.byte 0x01#8) := by decide

/-! ### Witnesses: for every obligation with hypotheses, a state and operands that meet all of them, at the ends of the ranges -/

/-- A command ends in a next state. -/
def completes (o : Host.Outcome State Fault Refusal) : Bool :=
  match o with
  | .next _ => true
  | _ => false

theorem completes_next {o : Host.Outcome State Fault Refusal} (h : completes o = true) : ∃ t, o = .next t := by
  cases o with
  | next t => exact ⟨t, rfl⟩
  | fault f => cases h
  | refused r => cases h

/-- The test target full, in SW mode, with a command presented. -/
def swReady (i : Instr) : State := { swWith bytesP2 with host := [encode i] }

theorem swWith_targetWf : TargetWf (swWith bytesV7) := by intro m h; cases h; decide
theorem hwWith_targetWf : TargetWf (hwWith bytesV7) := by intro m h; cases h; decide
theorem reset_targetWf : TargetWf State.reset := by intro m h; cases h

theorem witness_DecodingLosesNothing :
    decode (.frame [0x7F#8]) = .ok (.rdframe 0x7F#7 0) ∧ decode (.frame [0xFF#8, 0x00#8]) = .ok (.wrframe 0x7F#7 [0x00#8]) ∧
    decode (.command { port 0x01#5 with a := 0x7F#7, n := 9 }) = .ok (.rdreg 0x7F#7) := by decide
theorem witness_ReservedCommandCodesAreRefused :
    (∀ op ∈ [0x05#5, 0x07#5, 0x0A#5, 0x0F#5, 0x1B#5, 0x1F#5],
      (port op).op.toNat ∈ [0x05, 0x06, 0x07, 0x0A, 0x0B, 0x0C, 0x0D, 0x0E, 0x0F, 0x1B, 0x1C, 0x1D, 0x1E, 0x1F] ∧
      ({ State.reset with host := [.command (port op)] } : State).phase = .idle) ∧
    (∀ op ∈ [0x00#5, 0x04#5, 0x08#5, 0x09#5, 0x10#5, 0x1A#5],
      (port op).op.toNat ∉ [0x05, 0x06, 0x07, 0x0A, 0x0B, 0x0C, 0x0D, 0x0E, 0x0F, 0x1B, 0x1C, 0x1D, 0x1E, 0x1F]) := by decide
theorem witness_StepRunsTheDecodedInstruction :
    (swReady .rdtc).host = encode .rdtc :: [] ∧ (swReady .rdtc).phase = .idle ∧ decode (encode .rdtc) = .ok .rdtc := by decide
theorem witness_StepWaitsOrDoesNotAccept :
    State.reset.host = [] ∧ ({ swReady .trig with phase := .wait } : State).host = encode .trig :: [] ∧
    ({ swReady .trig with phase := .wait } : State).phase ≠ .idle := by decide
theorem witness_BitTimesCarryTheBitsInTheModesOrder : 0 < 8 ∧ 7 < 8 := by decide
theorem witness_SoftwarePathLooksReversed : 0 < 8 ∧ 7 < 8 := by decide
theorem witness_XferExchangesOneByteInSoftwareMode :
    State.reset.cfg.mode = .sw ∧ State.reset.chip.rx = .idle := by decide
theorem witness_LoopedBackXferReturnsTheByteSent :
    State.reset.cfg.mode = .sw ∧
    (match exec (.xfer 0x8F#8) (swTape [true, true, true, true, false, false, false, true]) with
      | .next t => t.trace
      | _ => []) = exchangeEvents .sw 0x8F#8 0x8F#8 ∧
    LoopedBack false (exchangeEvents .sw 0x8F#8 0x8F#8) :=
  ⟨by decide, by decide, ⟨rfl, rfl, rfl, rfl, rfl, rfl, rfl, rfl, trivial⟩⟩
theorem witness_BareXferInHardwareModeIsRefused : (hwDead 0xFF#8).cfg.mode = .hw := by decide

/-- The whole map, the highest address, no payload, and no test target with a frame off the map. -/
theorem witness_RdregsReadsOneFrame :
    16 ≤ (swWith bytesV7).par.maxCount ∧ (swWith bytesV7).onMap 0x00#7 16 = true ∧ (swWith bytesV7).onMap 0x0F#7 1 = true ∧
    (swWith bytesV7).onMap 0x0F#7 0 = true ∧ (swWith bytesV7).cfg.mode = .sw ∧
    (swWith bytesV7).chip.fixture = some (target bytesV7) ∧ (hwDead 0xFF#8).onMap 0x7F#7 16 = true := by decide
theorem witness_WrregsWritesOneFrame :
    (List.replicate 16 0x40#8).length ≤ (swWith bytesV7).par.maxCount ∧
    (swWith bytesV7).onMap 0x00#7 (List.replicate 16 0x40#8).length = true ∧
    (swWith bytesV7).onMap 0x0F#7 ([] : List Byte).length = true ∧ TargetWf (swWith bytesV7) :=
  ⟨by decide, by decide, by decide, swWith_targetWf⟩
theorem witness_RdregIsRdregsOfOne : 1 ≤ (swWith bytesV7).par.maxCount ∧ (swWith bytesV7).onMap 0x0F#7 1 = true := by decide
theorem witness_RdregReadsOneByte :
    (swWith bytesV7).onMap 0x00#7 1 = true ∧ (swWith bytesV7).onMap 0x0F#7 1 = true ∧
    (swWith bytesV7).chip.fixture = some (target bytesV7) := by decide
theorem witness_WrregWritesOneByte :
    (swWith bytesV7).onMap 0x00#7 1 = true ∧ (swWith bytesV7).onMap 0x0F#7 1 = true ∧ TargetWf (swWith bytesV7) ∧
    1 ≤ (swWith bytesV7).par.maxCount := ⟨by decide, by decide, swWith_targetWf, by decide⟩
theorem witness_WireFramesGoOutAsTheyStand :
    3 ≤ (hwWith bytesV7).par.maxCount ∧ (hwWith bytesV7).onMap 0x0D#7 3 = true ∧
    [0x7F#8, 0xFF#8].length ≤ (hwWith bytesV7).par.maxCount ∧ (hwWith bytesV7).onMap 0x0E#7 [0x7F#8, 0xFF#8].length = true ∧
    TargetWf (hwWith bytesV7) := ⟨by decide, by decide, by decide, by decide, hwWith_targetWf⟩
theorem witness_FramesAreBracketedEventByEvent :
    16 ≤ (hwWith bytesV7).par.maxCount ∧ (hwWith bytesV7).onMap 0x00#7 16 = true ∧ (hwWith bytesV7).cfg.mode = .hw ∧
    (swWith bytesV7).onMap 0x00#7 0 = true ∧ (swWith bytesV7).cfg.mode = .sw ∧
    [0x7F#8, 0xFF#8].length ≤ (swWith bytesV7).par.maxCount ∧ (swWith bytesV7).onMap 0x0E#7 [0x7F#8, 0xFF#8].length = true ∧
    (hwWith bytesV7).onMap 0x0F#7 ([] : List Byte).length = true := by decide
theorem witness_ReadFrameAdvancesByteByByte :
    0 ≤ 0 ∧ 3 ≤ 3 ∧ 0 < 3 ∧ (swWith bytesV7).cfg.mode = .sw ∧ (hwWith bytesV7).cfg.mode = .hw := by decide
theorem witness_TransportCommandsReturnIdle :
    Quiescent (swWith bytesV7) ∧ Quiescent (hwWith bytesV7) ∧ (∃ t, exec (.xfer 0xA5#8) (swWith bytesV7) = .next t) ∧
    (∃ t, exec (.rdreg 0x01#7) (hwWith bytesV7) = .next t) ∧ (∃ t, exec (.rdregs 0x00#7 16) (hwWith bytesV7) = .next t) ∧
    (∃ t, exec (.wrreg 0x01#7 0x03#8) (hwWith bytesV7) = .next t) ∧ (∃ t, exec (.wrregs 0x05#7 []) (swWith bytesV7) = .next t) :=
  ⟨⟨rfl, rfl, fun _ => rfl, rfl, rfl⟩, ⟨rfl, rfl, fun _ => rfl, rfl, rfl⟩, completes_next (by decide), completes_next (by decide),
    completes_next (by decide), completes_next (by decide), completes_next (by decide)⟩
/-- A block of a smaller MAX_COUNT. -/
def countsUpTo (n : Nat) : State := { State.reset with par := { State.reset.par with maxCount := n } }
theorem witness_CountsAboveTheMaximumAreRefused :
    State.reset.par.maxCount < 17 ∧ (List.replicate 17 0x00#8).length = 17 ∧ (countsUpTo 2).par.maxCount < 3 ∧
    (countsUpTo 1).par.maxCount < 2 := by decide
theorem witness_FramesOffTheMapAreSentUnlessTheTestTargetIsThere :
    3 ≤ State.reset.par.maxCount ∧ 15 < (0x0E#7).toNat + (3 - 1) ∧ State.reset.chip.fixture = none ∧
    15 < (0x10#7).toNat + (0 - 1) ∧ 15 < (0x10#7).toNat ∧ (swWith bytesV7).chip.fixture = some (target bytesV7) ∧
    [0x00#8, 0x00#8, 0x00#8].length = 3 := by decide
theorem witness_ModesAgreeAtByteLevel :
    State.reset.chip.fixture = none ∧ [0x00#8, 0x23#8].length = 2 ∧ [0x00#8].length = 0 + 1 ∧
    (List.replicate 17 0xA5#8).length = 16 + 1 ∧ 16 ≤ State.reset.par.maxCount ∧
    [0x00#8, 0x01#8, 0x02#8].length = [0x7F#8, 0xFF#8].length + 1 ∧ [0x7F#8, 0xFF#8].length ≤ State.reset.par.maxCount := by decide
theorem witness_DecoderResultsStayInRange :
    (∃ t, exec (.dectc 0x80#8 0x00#8 0x00#8) State.reset = .next t) ∧ (∃ t, exec (.deccj 0x7F#8 0xFF#8) State.reset = .next t) :=
  ⟨completes_next (by decide), completes_next (by decide)⟩
/-- binary32, and the smallest format R6 allows. -/
theorem witness_DecoderResultsAreExactInEveryFormat :
    Config.binary32.legal = true ∧ (⟨19, -8, 11⟩ : FloatFmt).legal = true := by decide
theorem witness_DectcDecodesTheLinearisedTemperature :
    ({ port 0x08#5 with d := [0xFE#8, 0x70#8, 0x00#8] } : Port).op = 0x08#5 ∧
    ({ port 0x08#5 with d := [0xFE#8, 0x70#8, 0x00#8] } : Port).d = [0xFE#8, 0x70#8, 0x00#8] := by decide
theorem witness_DeccjDecodesTheColdJunctionTemperature :
    ({ port 0x09#5 with d := [0x19#8, 0x07#8] } : Port).op = 0x09#5 ∧
    ({ port 0x09#5 with d := [0x19#8, 0x07#8] } : Port).d = [0x19#8, 0x07#8] := by decide
theorem witness_DecodersAreMonotoneAndInjective : (0x00#8).toNat < 8 ∧ (0x07#8).toNat < 8 := by decide

theorem witness_macros : MacrosOnMap State.reset ∧ TargetWf State.reset ∧ MacrosOnMap (swWith bytesV7) ∧ TargetWf (swWith bytesV7) ∧
    MacrosOnMap (hwWith bytesV7) ∧ TargetWf (hwWith bytesV7) ∧ (hwWith bytesV7).chip.fixture.isSome = true :=
  ⟨.inl rfl, reset_targetWf, .inr (by decide), swWith_targetWf, .inr (by decide), hwWith_targetWf, rfl⟩
theorem witness_BeginIdlesTheLinesAndWritesTheType :
    MacrosOnMap (swWith bytesV7) ∧ TargetWf (swWith bytesV7) ∧ (swWith bytesV7).cfg.mode = .sw ∧
    (swWith bytesV7).chip.fixture.isSome = true := ⟨.inr (by decide), swWith_targetWf, rfl, rfl⟩
theorem witness_SettcReplacesTheLowNibbleOfCr1 :
    MacrosOnMap (hwWith bytesV7) ∧ TargetWf (hwWith bytesV7) ∧ ({ port 0x11#5 with t := 0xF#4 } : Port).op = 0x11#5 ∧
    ({ port 0x11#5 with t := 0xF#4 } : Port).t = 0xF#4 := ⟨.inr (by decide), hwWith_targetWf, rfl, rfl⟩
theorem witness_GettcReturnsTheLowNibbleOfCr1 : MacrosOnMap (hwWith bytesV7) ∧ (port 0x12#5).op = 0x12#5 := ⟨.inr (by decide), rfl⟩
theorem witness_SetavgReplacesTheSelectorOfCr1 :
    MacrosOnMap (swWith bytesV7) ∧ TargetWf (swWith bytesV7) ∧ ({ port 0x13#5 with s := 7#3 } : Port).s = 7#3 :=
  ⟨.inr (by decide), swWith_targetWf, rfl⟩
theorem witness_GetavgReturnsTheSampleCount : MacrosOnMap State.reset ∧ (port 0x14#5).op = 0x14#5 := ⟨.inl rfl, rfl⟩
theorem witness_SetnfReplacesTheFilterBitOfCr0 :
    MacrosOnMap (swWith bytesV7) ∧ TargetWf (swWith bytesV7) ∧ ({ port 0x15#5 with f := true } : Port).f = true :=
  ⟨.inr (by decide), swWith_targetWf, rfl⟩
theorem witness_GetnfReturnsTheFilterBitOfCr0 : MacrosOnMap (hwWith bytesV7) ∧ (port 0x16#5).op = 0x16#5 := ⟨.inr (by decide), rfl⟩
theorem witness_RdfaultReturnsTheRawByte : MacrosOnMap (hwWith bytesV7) ∧ (port 0x1A#5).op = 0x1A#5 := ⟨.inr (by decide), rfl⟩
theorem witness_SettersStoreOneByteUnderTheTestTarget :
    MacrosOnMap (swWith bytesV7) ∧ TargetWf (swWith bytesV7) ∧ (swWith bytesV7).chip.fixture.isSome = true :=
  ⟨.inr (by decide), swWith_targetWf, rfl⟩
theorem witness_GettersLeaveTheTestTargetAlone :
    MacrosOnMap (hwWith bytesV7) ∧ (hwWith bytesV7).chip.fixture.isSome = true := ⟨.inr (by decide), rfl⟩
theorem witness_WaitTimesAreThoseOfTheTable : 155 ∈ [155, 189, 257, 393, 665, 185, 225, 305, 465, 785] ∧
    785 ∈ [155, 189, 257, 393, 665, 185, 225, 305, 465, 785] := by decide
theorem witness_TrigStartsAConversionAndWaits :
    MacrosOnMap (hwWith bytesP2) ∧ TargetWf (hwWith bytesP2) ∧ (hwWith bytesP2).chip.fixture.isSome = true :=
  ⟨.inr (by decide), by intro m h; cases h; decide, rfl⟩
theorem witness_RdtcTriggersReadsAndDecodes :
    3 ≤ (swWith bytesP2).par.maxCount ∧ MacrosOnMap (swWith bytesP2) ∧ TargetWf (swWith bytesP2) ∧
      (swWith bytesP2).chip.fixture.isSome = true :=
  ⟨by decide, .inr (by decide), by intro m h; cases h; decide, rfl⟩
theorem witness_RdcjTriggersReadsAndDecodes :
    2 ≤ (swWith bytesP2).par.maxCount ∧ MacrosOnMap (swWith bytesP2) ∧ TargetWf (swWith bytesP2) ∧
      (swWith bytesP2).chip.fixture.isSome = true :=
  ⟨by decide, .inr (by decide), by intro m h; cases h; decide, rfl⟩
theorem witness_SettersAndGettersRoundTrip :
    (hwWith bytesP2).chip.fixture = some (target bytesP2) ∧ (target bytesP2).wf = true ∧ (hwWith bytesP2).par.legal = true ∧
    (target bytesP2).read (hwWith bytesP2).par.addrCr0.toNat = 0x01#8 ∧
    (target bytesP2).read (hwWith bytesP2).par.addrCr1.toNat = 0x23#8 := by decide
theorem witness_DeadBusReturnsGarbageWithoutASign :
    (hwDead 0xFF#8).cfg.mode = .hw ∧ (hwDead 0xFF#8).chip.fixture = none ∧ 10 ≤ 40 ∧ 3 ≤ (hwDead 0xFF#8).par.maxCount ∧
    (hwDead 0xFF#8).env.busIn = List.replicate 40 0xFF#8 ∧ (hwDead 0x00#8).env.busIn = List.replicate 40 0x00#8 := by decide
theorem witness_NoStepWritesTheConfiguration : ∃ t, step (swReady .beginDev) = .next t := completes_next (by decide)
theorem witness_EveryStepKeepsTheInvariant : Inv (swReady .rdtc) ∧ ∃ t, step (swReady .rdtc) = .next t :=
  ⟨⟨⟨rfl, rfl, fun _ => rfl, rfl, rfl⟩, ⟨rfl, by decide, by intro m h; cases h; decide⟩, by decide, by decide⟩, completes_next (by decide)⟩
theorem witness_EveryCommandsEventsAreWellBracketed :
    (∀ v, Instr.rdtc ≠ .xfer v) ∧ (∃ t, exec .rdtc (hwWith bytesP2) = .next t) ∧ ∃ t, exec (.xfer 0xA5#8) (swWith bytesP2) = .next t :=
  ⟨by simp, completes_next (by decide), completes_next (by decide)⟩
theorem witness_WorkingRegistersAreDeadBetweenCommands :
    (∃ t, exec .getavg (hwWith bytesP2) = .next t) ∧ exec (.xfer 0xA5#8) (hwWith bytesP2) = .refused .xferWithoutBus :=
  ⟨completes_next (by decide), rfl⟩
theorem witness_OnlyConversionsAskForADelay :
    (∃ t, exec .trig (hwWith bytesP2) = .next t) ∧ ∃ t, exec .getnf (hwWith bytesP2) = .next t :=
  ⟨completes_next (by decide), completes_next (by decide)⟩

end Sys2Proof.Tests
end

namespace Sys2Proof.Machine

/-! ### The device handle under every command and every step (10_state.md R15) -/

theorem xfer_keepsHandle (v : Byte) (s : State) : KeepsHandle s (xfer v s) := by
  rw [xfer_eq]
  exact ⟨rfl, rfl, rfl⟩

theorem decodeLinear_keepsHandle (b0 b1 b2 : Byte) (s : State) : KeepsHandle s (decodeLinear b0 b1 b2 s) :=
  ⟨rfl, rfl, rfl⟩

theorem decodeColdJunction_keepsHandle (b0 b1 : Byte) (s : State) : KeepsHandle s (decodeColdJunction b0 b1 s) :=
  ⟨rfl, rfl, rfl⟩

/-- Handing a result to the host touches no part of the handle. -/
theorem KeepsHandle.giveResult {s t : State} (r : Result) (h : KeepsHandle s t) : KeepsHandle s (giveResult r t) := h

theorem FramesRun.keepsHandle {i : Instr} {s t : State} (h : FramesRun i s t) : KeepsHandle s t := by
  obtain ⟨_, _, hran, -⟩ := h.ran
  exact hran.handle

/-- Every command that completes leaves CFG, the parameters and the host's remaining run alone. -/
theorem exec_keepsHandle {i : Instr} {s t : State} (h : exec i s = .next t) : KeepsHandle s t := by
  obtain ⟨v, -, -, rfl⟩ | ⟨b0, b1, b2, -, rfl⟩ | ⟨b0, b1, -, rfl⟩ | ⟨-, -, -, hframes⟩ := exec_cases h
  · exact (xfer_keepsHandle v s).giveResult _
  · exact decodeLinear_keepsHandle b0 b1 b2 s
  · exact decodeColdJunction_keepsHandle b0 b1 s
  · exact hframes.keepsHandle

/-- Settles O46: a step either waits and changes nothing, or takes one item from the port, which is no part of CFG, and runs a
command, which keeps the handle. -/
theorem noStepWritesTheConfiguration : Obligations.NoStepWritesTheConfiguration := by
  intro s t hstep
  obtain ⟨-, rfl⟩ | ⟨_, rest, _, -, -, -, hexec⟩ := step_cases hstep
  · rfl
  · obtain ⟨hcfg, -, -⟩ := exec_keepsHandle hexec
    exact hcfg

end Sys2Proof.Machine

namespace Sys2Proof.Machine

/-! ### The bits of a byte on the wire, in either order (30_encoding.md R60) -/

theorem bitTimes_eq_range : bitTimes = List.range 8 := rfl

@[simp] theorem serialise_length (o : BitOrder) (b : Byte) : (serialise o b).length = 8 := rfl

theorem serialise_getElem? (o : BitOrder) (b : Byte) {t : Nat} (ht : t < 8) :
    (serialise o b)[t]? = some (serialBit o b t) := by
  simp [serialise, bitTimes_eq_range, List.getElem?_range ht]

/-- Taking in a bit on the most-significant-first path puts it at bit 0 and moves every other bit up by one. -/
theorem shiftIn_msb_getLsbD (r : Byte) (m : Bit) {i : Nat} (hi : i < 8) :
    (shiftIn .msbFirst r m).getLsbD i = if i = 0 then m else r.getLsbD (i - 1) := by
  have hnew : (if m then 0x01#8 else 0x00#8).getLsbD i = (decide (i = 0) && m) := by
    cases m <;> simp [BitVec.getLsbD_one]
  rw [shiftIn, BitVec.getLsbD_or, BitVec.getLsbD_shiftLeft, hnew]
  cases i with
  | zero => simp
  | succ j => simp [hi]

/-- Most significant bit first, the last level received is bit 0, the one before it bit 1, and so on. -/
theorem deserialise_msb_getLsbD (ms : List Bit) {i : Nat} (hi : i < 8) :
    (deserialise .msbFirst ms).getLsbD i = ms.reverse.getD i false := by
  induction ms using List.reverseRecOn generalizing i with
  | nil => simp [deserialise]
  | append_singleton ms m ih =>
    rw [deserialise, List.foldl_append, List.foldl_cons, List.foldl_nil, shiftIn_msb_getLsbD _ _ hi]
    cases i with
    | zero => simp
    | succ j => simpa [deserialise] using ih (Nat.lt_of_succ_lt hi)

/-- The two modes put a byte's bits on the wire in opposite orders. -/
theorem serialise_msb_reverse (b : Byte) : (serialise .msbFirst b).reverse = serialise .lsbFirst b := rfl

theorem deserialise_serialise_msb (b : Byte) : deserialise .msbFirst (serialise .msbFirst b) = b := by
  apply BitVec.eq_of_getLsbD_eq
  intro i hi
  rw [deserialise_msb_getLsbD _ hi, serialise_msb_reverse, List.getD_eq_getElem?_getD, serialise_getElem? _ _ hi]
  rfl

/-- The receiver of either mode assembles the byte its sender serialised. -/
theorem deserialise_serialise_wireOrder (m : Mode) (b : Byte) :
    deserialise (wireOrder m) (serialise (wireOrder m) b) = b := by
  cases m with
  | hw => exact deserialise_serialise_msb b
  | sw => exact deserialise_serialise b

/-- Each pulse of an SW exchange drives the data-out line once, to the bit sent at that bit time. -/
theorem dataOut_exchangeEvents_sw (v r : Byte) :
    dataOut (exchangeEvents .sw v r) = serialise Config.swBitOrder v := by
  rw [dataOut, exchangeEvents, List.filterMap_flatMap, serialise, List.map_eq_flatMap]
  rfl

/-- Each pulse of an SW exchange samples the data-in line once, at the bit received at that bit time. -/
theorem dataIn_exchangeEvents_sw (v r : Byte) :
    dataIn (exchangeEvents .sw v r) = serialise Config.swBitOrder r := by
  rw [dataIn, exchangeEvents, List.filterMap_flatMap, serialise, List.map_eq_flatMap]
  rfl

/-- Settles O8: level t is `serialBit` at t, either receiver undoes its sender's order, and the pulses of an SW exchange drive and
sample the serialised bytes; the example's two level sequences are evaluated. -/
theorem bitTimesCarryTheBitsInTheModesOrder : Obligations.BitTimesCarryTheBitsInTheModesOrder := by
  refine ⟨fun b t ht => ⟨?_, ?_⟩, fun m b => ⟨serialise_length _ b, deserialise_serialise_wireOrder m b⟩,
    fun v r => ⟨dataOut_exchangeEvents_sw v r, dataIn_exchangeEvents_sw v r⟩, by decide, by decide⟩
  · exact serialise_getElem? .msbFirst b ht
  · exact serialise_getElem? .lsbFirst b ht

end Sys2Proof.Machine

namespace Sys2Proof.Machine

/-! ### How a transport command leaves the lines (40_transport.md R86) -/

/-- A command made of frames ends with its last frame's deselect, from wherever it started. -/
theorem FramesRun.returnsIdle {i : Instr} {s t : State} (h : FramesRun i s t) : ReturnsIdle s t := by
  obtain ⟨_, _, hran, -⟩ := h.ran
  exact hran.idle

/-- An exchange outside a frame moves no line but the clock and the data-out line: chip-select, the shared bus and PHASE stand
as they stood. -/
theorem xfer_keepsSelection (v : Byte) (s : State) :
    (xfer v s).csN = s.csN ∧ (xfer v s).busHeld = s.busHeld ∧ (xfer v s).phase = s.phase := by
  rw [xfer_eq]
  exact ⟨rfl, rfl, rfl⟩

/-- The eighth pulse of an SW exchange leaves the clock high. -/
theorem xfer_sck_of_sw (v : Byte) {s : State} (hsw : s.cfg.mode = .sw) : (xfer v s).sck = true := by
  rw [xfer_eq, hsw]
  rfl

/-- Settles O21: XFER moves neither CS_N, BUS_HELD nor PHASE, which were at rest between commands, and leaves the clock high;
the other four are complete frames, which return idle. -/
theorem transportCommandsReturnIdle : Obligations.TransportCommandsReturnIdle := by
  rintro s t i ⟨hcs, hbus, -, hphase, -⟩ hfamily hexec
  obtain ⟨v, -, hsw, rfl⟩ | ⟨b0, b1, b2, rfl, -⟩ | ⟨b0, b1, rfl, -⟩ | ⟨-, -, -, hframes⟩ := exec_cases hexec
  · obtain ⟨hcs', hbus', hphase'⟩ := xfer_keepsSelection v s
    exact ⟨hcs'.trans hcs, fun _ => hbus'.trans hbus, fun _ => xfer_sck_of_sw v hsw, hphase'.trans hphase⟩
  · simp at hfamily
  · simp at hfamily
  · obtain ⟨hcs', hphase', -, hhw, hsw⟩ := hframes.returnsIdle
    refine ⟨hcs', fun hm => ?_, fun hm => ?_, hphase'⟩
    · obtain ⟨hreleased, -⟩ := hhw hm
      exact hreleased
    · obtain ⟨-, hclock, -⟩ := hsw hm
      exact hclock

end Sys2Proof.Machine

namespace Sys2Proof.Machine

/-! ### The decoder commands as arithmetic (41_decoder.md R91 to R94) -/

/-- The code of DECTC with its port's operand bytes (30_encoding.md R63). -/
theorem decode_command_dectc {p : Port} {b0 b1 b2 : Byte} (hop : p.op = 0x08#5) (hd : p.d = [b0, b1, b2]) :
    decode (.command p) = .ok (.dectc b0 b1 b2) := by
  simp [decode, decodeCommand, hop, hd]

/-- The code of DECCJ with its port's operand bytes (30_encoding.md R63). -/
theorem decode_command_deccj {p : Port} {b0 b1 : Byte} (hop : p.op = 0x09#5) (hd : p.d = [b0, b1]) :
    decode (.command p) = .ok (.deccj b0 b1) := by
  simp [decode, decodeCommand, hop, hd]

theorem exec_dectc (b0 b1 b2 : Byte) (s : State) :
    exec (.dectc b0 b1 b2) s = .next
      { s with
        work := { s.work with decIn := BitVec.ofNat 24 (raw24 b0 b1 b2), decOut := toFloat (linearUnits b0 b1 b2) 7 }
        result := .float (toFloat (linearUnits b0 b1 b2) 7) } := rfl

theorem exec_deccj (b0 b1 : Byte) (s : State) :
    exec (.deccj b0 b1) s = .next
      { s with
        work := { s.work with decIn := BitVec.ofNat 24 (raw16 b0 b1), decOut := toFloat (sext 16 (raw16 b0 b1)) 8 }
        result := .float (toFloat (sext 16 (raw16 b0 b1)) 8) } := rfl

theorem toFloat_eq_div (q : Int) (k : Nat) : toFloat q k = (q : Rat) / 2 ^ k := by
  rw [toFloat, Rat.mkRat_eq_div]
  norm_cast

theorem and_shiftLeft (n m k : Nat) : n &&& m <<< k = (n >>> k &&& m) <<< k := by
  apply Nat.eq_of_testBit_eq
  intro i
  by_cases hi : k ≤ i
  · simp [hi]
  · simp [hi]

/-- The mask is nineteen ones above five zeros, so on integers it keeps the multiple of 32. -/
theorem and_linearMask {n : Nat} (hn : n < 2 ^ 24) : n &&& 0xFFFFE0 = n / 32 * 32 := by
  calc n &&& 0xFFFFE0 = (n >>> 5 &&& (2 ^ 19 - 1)) <<< 5 := and_shiftLeft n (2 ^ 19 - 1) 5
    _ = n / 32 % 2 ^ 19 * 32 := by
      rw [Nat.and_two_pow_sub_one_eq_mod, Nat.shiftLeft_eq, Nat.shiftRight_eq_div_pow]
    _ = n / 32 * 32 := by omega

/-- Clearing the reserved bits after the three bytes are put together gives the same code as clearing them before (R92). -/
theorem raw24_eq_and (b0 b1 b2 : Byte) :
    raw24 b0 b1 b2 = (b0.toNat * 65536 + b1.toNat * 256 + b2.toNat) &&& 0xFFFFE0 := by
  have h0 := b0.isLt
  have h1 := b1.isLt
  have h2 := b2.isLt
  rw [raw24_eq, and_linearMask (by omega)]
  omega

/-- The shift by five loses nothing: the reserved bits are zero (R93). -/
theorem sext_raw24 (b0 b1 b2 : Byte) : sext 24 (raw24 b0 b1 b2) = linearUnits b0 b1 b2 * 32 := by
  have h0 := b0.isLt
  have h1 := b1.isLt
  have h2 := b2.isLt
  rw [linearUnits_eq, sext, raw24_eq]
  split <;> split <;> omega

theorem linearUnits_eq_fdiv (b0 b1 b2 : Byte) : linearUnits b0 b1 b2 = Int.fdiv (sext 24 (raw24 b0 b1 b2)) 32 := by
  rw [sext_raw24, Int.mul_fdiv_cancel _ (by decide)]

/-- The scaled code is a 19-bit two's-complement number. -/
theorem linearUnits_bounds (b0 b1 b2 : Byte) : -262144 ≤ linearUnits b0 b1 b2 ∧ linearUnits b0 b1 b2 ≤ 262143 := by
  have h0 := b0.isLt
  have h1 := b1.isLt
  have h2 := b2.isLt
  rw [linearUnits_eq]
  split <;> omega

/-- A 128th of the scaled code is a 4096th of the code (R93). -/
theorem toFloat_linearUnits (b0 b1 b2 : Byte) :
    toFloat (linearUnits b0 b1 b2) 7 = (sext 24 (raw24 b0 b1 b2) : Rat) / 4096 := by
  rw [toFloat_eq_div, sext_raw24]
  push_cast
  ring

/-- Settles O25: the witnesses are the model's own code, its sign extension and its scaled code. -/
theorem dectcDecodesTheLinearisedTemperature : Obligations.DectcDecodesTheLinearisedTemperature := by
  intro s b0 b1 b2
  obtain ⟨hlow, hhigh⟩ := linearUnits_bounds b0 b1 b2
  have hdiv : toFloat (linearUnits b0 b1 b2) 7 = (linearUnits b0 b1 b2 : Rat) / 128 := by
    rw [toFloat_eq_div]; norm_num
  exact ⟨fun _ => decode_command_dectc,
    raw24 b0 b1 b2, sext 24 (raw24 b0 b1 b2), linearUnits b0 b1 b2,
    raw24_eq b0 b1 b2, raw24_eq_and b0 b1 b2, rfl, sext_raw24 b0 b1 b2, linearUnits_eq_fdiv b0 b1 b2, hlow, hhigh,
    toFloat (linearUnits b0 b1 b2) 7, hdiv, toFloat_linearUnits b0 b1 b2, exec_dectc b0 b1 b2 s⟩

/-- Settles O26: the witnesses are the model's own code and its sign extension. -/
theorem deccjDecodesTheColdJunctionTemperature : Obligations.DeccjDecodesTheColdJunctionTemperature := by
  intro s b0 b1
  have hdiv : toFloat (sext 16 (raw16 b0 b1)) 8 = (sext 16 (raw16 b0 b1) : Rat) / 256 := by
    rw [toFloat_eq_div]; norm_num
  exact ⟨fun _ => decode_command_deccj, raw16 b0 b1, sext 16 (raw16 b0 b1), raw16_eq b0 b1, rfl,
    toFloat (sext 16 (raw16 b0 b1)) 8, hdiv, exec_deccj b0 b1 s⟩

end Sys2Proof.Machine

namespace Sys2Proof.Machine

/-! ### The controller's register setters and getters (42_controller.md R103 to R108, R118) -/

/-! The codes with their operand ports (30_encoding.md R63). -/

theorem decode_command_settc {p : Port} (hop : p.op = 0x11#5) : decode (.command p) = .ok (.settc p.t) := by
  simp [decode, decodeCommand, hop]

theorem decode_command_gettc {p : Port} (hop : p.op = 0x12#5) : decode (.command p) = .ok .gettc := by
  simp [decode, decodeCommand, hop]

theorem decode_command_setavg {p : Port} (hop : p.op = 0x13#5) : decode (.command p) = .ok (.setavg p.s) := by
  simp [decode, decodeCommand, hop]

theorem decode_command_getavg {p : Port} (hop : p.op = 0x14#5) : decode (.command p) = .ok .getavg := by
  simp [decode, decodeCommand, hop]

theorem decode_command_setnf {p : Port} (hop : p.op = 0x15#5) : decode (.command p) = .ok (.setnf p.f) := by
  simp [decode, decodeCommand, hop]

theorem decode_command_getnf {p : Port} (hop : p.op = 0x16#5) : decode (.command p) = .ok .getnf := by
  simp [decode, decodeCommand, hop]

theorem decode_command_rdfault {p : Port} (hop : p.op = 0x1A#5) : decode (.command p) = .ok .rdfault := by
  simp [decode, decodeCommand, hop]

/-! A setter is a read-modify-write of one register, a getter a function of the byte one read frame captured. -/

/-- The outcome of a setter of the register at `a` that makes `f v` of the byte `v`. -/
def setRegister (a : Addr) (f : Byte → Byte) (s : State) : Host.Outcome State Fault Refusal :=
  onTarget (rmwFrames a) s (giveResult .nothing (rmw a f s))

/-- The outcome of a getter of the register at `a` that answers `r v` for the byte `v`. -/
def getRegister (a : Addr) (r : Byte → Result) (s : State) : Host.Outcome State Fault Refusal :=
  onTarget [(a, 1)] s (giveResult (r ((readFrame a 1 s).rbufByte 0)) (readFrame a 1 s))

theorem exec_settc (ty : BitVec 4) (s : State) :
    exec (.settc ty) s = setRegister s.par.addrCr1 (fun v => insertType v ty) s := rfl

theorem exec_setavg (sel : BitVec 3) (s : State) :
    exec (.setavg sel) s = setRegister s.par.addrCr1 (fun v => insertSelector v sel) s := rfl

theorem exec_setnf (f : Bit) (s : State) :
    exec (.setnf f) s = setRegister s.par.addrCr0 (fun v => insertFilter v f) s := rfl

theorem exec_gettc (s : State) :
    exec .gettc s = getRegister s.par.addrCr1 (fun v => .tcType (extractType v)) s := rfl

theorem exec_getavg (s : State) :
    exec .getavg s = getRegister s.par.addrCr1 (fun v => .count (countOf (extractSelector v))) s := rfl

theorem exec_getnf (s : State) :
    exec .getnf s = getRegister s.par.addrCr0 (fun v => .bit (extractFilter v)) s := rfl

theorem exec_rdfault (s : State) : exec .rdfault s = getRegister s.par.addrSr .byte s := rfl

/-- A setter on the map completes with the two frames of its read-modify-write (R101), the chip as a one-byte write leaves it. -/
theorem setRegister_completes {a : Addr} (f : Byte → Byte) {s : State} (hmap : s.onMap a 1 = true) :
    ∃ t x v y z, setRegister a f s = .next t ∧ Sends s t (linkRmw a x v y (f v) z) ∧ t.result = .nothing ∧
      t.work.rbuf = [v] ∧ KeepsDecoder s t ∧ t.chip = Chip.wrote s.par a.toNat (f v) s.chip ∧
      (∀ m, s.chip.fixture = some m → a.toNat < Config.nReg → v = m.read a.toNat) := by
  obtain ⟨x, v, y, z, hran, hrbuf, hdec, hchip, -, hread⟩ := rmw_ran a f s
  exact ⟨_, x, v, y, z, rmw_onTarget a s _ hmap, (hran.giveResult _).sends, rfl, hrbuf, hdec, hchip, hread⟩

/-- A getter on the map completes with its one read frame and answers from the byte captured; of the chip only the frame's
position moves. -/
theorem getRegister_completes {a : Addr} (r : Byte → Result) {s : State} (hmap : s.onMap a 1 = true) :
    ∃ t x v, getRegister a r s = .next t ∧ Sends s t (linkFrame (readExchanges a x [v])) ∧ t.result = r v ∧
      t.work.rbuf = [v] ∧ KeepsDecoder s t ∧ t.chip = { s.chip with rx := .idle } ∧
      (∀ m, s.chip.fixture = some m → a.toNat < Config.nReg → v = m.read a.toNat) := by
  obtain ⟨x, v, hran, hrbuf, hbyte, hdec, hchip, -, hread⟩ := readOne_ran a s
  exact ⟨_, x, v, one_onTarget a 1 s _ hmap, (hran.giveResult _).sends, congrArg r hbyte, hrbuf, hdec, hchip, hread⟩

/-! The fields in the spec's own terms. -/

theorem insertType_masks (v : Byte) (ty : BitVec 4) :
    insertType v ty = (v &&& 0xF0#8) ||| (ty.setWidth 8 &&& 0x0F#8) := rfl

theorem insertSelector_masks (v : Byte) (sel : BitVec 3) :
    insertSelector v sel = (v &&& 0x8F#8) ||| ((sel.setWidth 8 <<< 4) &&& 0x70#8) := rfl

theorem countOf_eq (sel : Nat) : countOf sel = if sel ≤ 4 then 2 ^ sel else 16 := by
  match sel with
  | 0 | 1 | 2 | 3 | 4 => rfl
  | n + 5 => rw [if_neg (by omega)]; rfl

/-- Settles O31: the read-modify-write of CR1 that inserts the type; it is made of frames, which leave CFG alone. -/
theorem settcReplacesTheLowNibbleOfCr1 : Obligations.SettcReplacesTheLowNibbleOfCr1 := by
  intro s ty hmacros
  obtain ⟨-, hcr1, -⟩ := macro_onMap s hmacros
  refine ⟨fun p hop ht => ht ▸ decode_command_settc hop, ?_⟩
  obtain ⟨t, x, v, y, z, hexec, hsends, hres, hrbuf, hdec, -⟩ := setRegister_completes (fun v => insertType v ty) hcr1
  rw [← exec_settc] at hexec
  obtain ⟨hcfg, -⟩ := exec_keepsHandle hexec
  exact ⟨t, x, v, y, insertType v ty, z, hexec, insertType_toNat v ty, insertType_masks v ty, hsends,
    congrArg Cfg.tcType hcfg, hres, hrbuf, hdec⟩

/-- Settles O32: the getter of CR1 that extracts the type. -/
theorem gettcReturnsTheLowNibbleOfCr1 : Obligations.GettcReturnsTheLowNibbleOfCr1 := by
  intro s hmacros
  obtain ⟨-, hcr1, -⟩ := macro_onMap s hmacros
  refine ⟨fun _ => decode_command_gettc, ?_⟩
  rw [exec_gettc]
  obtain ⟨t, x, v, hexec, hsends, hres, hrbuf, hdec, -⟩ := getRegister_completes (fun v => .tcType (extractType v)) hcr1
  exact ⟨t, x, v, extractType v, hexec, hsends, hres, extractType_toNat v, hrbuf, hdec⟩

/-- Settles O33: the read-modify-write of CR1 that inserts the selector. -/
theorem setavgReplacesTheSelectorOfCr1 : Obligations.SetavgReplacesTheSelectorOfCr1 := by
  intro s sel hmacros
  obtain ⟨-, hcr1, -⟩ := macro_onMap s hmacros
  refine ⟨fun p hop hs => hs ▸ decode_command_setavg hop, ?_⟩
  rw [exec_setavg]
  obtain ⟨t, x, v, y, z, hexec, hsends, hres, hrbuf, hdec, -⟩ :=
    setRegister_completes (fun v => insertSelector v sel) hcr1
  exact ⟨t, x, v, y, insertSelector v sel, z, hexec, insertSelector_toNat v sel, insertSelector_masks v sel, hsends,
    hres, hrbuf, hdec⟩

/-- Settles O34: the getter of CR1 that turns the selector into a sample count. -/
theorem getavgReturnsTheSampleCount : Obligations.GetavgReturnsTheSampleCount := by
  intro s hmacros
  obtain ⟨-, hcr1, -⟩ := macro_onMap s hmacros
  refine ⟨fun _ => decode_command_getavg, ?_⟩
  rw [exec_getavg]
  obtain ⟨t, x, v, hexec, hsends, hres, hrbuf, hdec, -⟩ :=
    getRegister_completes (fun v => .count (countOf (extractSelector v))) hcr1
  refine ⟨t, x, v, hexec, hsends, ?_, hrbuf, hdec⟩
  rw [hres, extractSelector_eq, countOf_eq]

/-- Settles O35: the read-modify-write of CR0 that inserts the filter bit. -/
theorem setnfReplacesTheFilterBitOfCr0 : Obligations.SetnfReplacesTheFilterBitOfCr0 := by
  intro s f hmacros
  obtain ⟨hcr0, -⟩ := macro_onMap s hmacros
  refine ⟨fun p hop hf => hf ▸ decode_command_setnf hop, ?_⟩
  rw [exec_setnf]
  obtain ⟨t, x, v, y, z, hexec, hsends, hres, hrbuf, hdec, -⟩ := setRegister_completes (fun v => insertFilter v f) hcr0
  exact ⟨t, x, v, y, insertFilter v f, z, hexec, insertFilter_toNat v f, hsends, hres, hrbuf, hdec⟩

/-- Settles O36: the getter of CR0 that extracts the filter bit. -/
theorem getnfReturnsTheFilterBitOfCr0 : Obligations.GetnfReturnsTheFilterBitOfCr0 := by
  intro s hmacros
  obtain ⟨hcr0, -⟩ := macro_onMap s hmacros
  refine ⟨fun _ => decode_command_getnf, ?_⟩
  rw [exec_getnf]
  obtain ⟨t, x, v, hexec, hsends, hres, hrbuf, hdec, -⟩ := getRegister_completes (fun v => .bit (extractFilter v)) hcr0
  exact ⟨t, x, v, hexec, hsends, by rw [hres, extractFilter_eq], hrbuf, hdec⟩

/-- Settles O37: the getter of the fault status register that answers the byte as it is; a read frame leaves the conversion. -/
theorem rdfaultReturnsTheRawByte : Obligations.RdfaultReturnsTheRawByte := by
  intro s hmacros
  obtain ⟨-, -, -, -, hsr⟩ := macro_onMap s hmacros
  refine ⟨fun _ => decode_command_rdfault, ?_⟩
  rw [exec_rdfault]
  obtain ⟨t, x, v, hexec, hsends, hres, hrbuf, hdec, hchip, -⟩ := getRegister_completes .byte hsr
  exact ⟨t, x, v, hexec, hsends, hres, hrbuf, by rw [hchip], hdec⟩

end Sys2Proof.Machine

namespace Sys2Proof.Machine

/-! ### The decoder undoes the encoder, and the encoder the decoder (30_encoding.md R56 to R63) -/

/-- A read frame's address byte with `n` dummies is the read frame of `n` bytes at that address. -/
theorem decodeFrame_read (a : Addr) (n : Nat) :
    decodeFrame (readAddressByte a :: List.replicate n Config.dummy) = .ok (.rdframe a n) := by
  have ha : addressOf (readAddressByte a) = a := by revert a; decide
  have hflag := readAddressByte_flag a
  simp [decodeFrame, -BitVec.getLsbD_eq_getElem, hflag, ha]

/-- A write frame's address byte, whatever payload follows, is the write frame of that payload at that address. -/
theorem decodeFrame_write (a : Addr) (d : List Byte) :
    decodeFrame (writeAddressByte a :: d) = .ok (.wrframe a d) := by
  have ha : addressOf (writeAddressByte a) = a := by revert a; decide
  simp [decodeFrame, writeAddressByte_flag, ha]

theorem decode_encode (i : Instr) : decode (encode i) = .ok i := by
  cases i with
  | rdframe a n => exact decodeFrame_read a n
  | wrframe a d => exact decodeFrame_write a d
  | _ => rfl

/-- Settles O1: the two frames by their address byte, every command by its row of the table. -/
theorem everyInstructionDecodesBack : Obligations.EveryInstructionDecodesBack := decode_encode

/-- What a frame decodes to carries every bit of it: the flag, the address and the payload. -/
theorem encode_of_decodeFrame {bs : List Byte} {i : Instr} (h : decodeFrame bs = .ok i) : encode i = .frame bs := by
  cases bs with
  | nil => cases h
  | cons ab d =>
    rw [decodeFrame] at h
    by_cases hflag : ab.getLsbD 7 = true
    · rw [if_pos hflag] at h
      cases h
      rw [encode, writeAddressByte_of ab hflag]
    · rw [if_neg hflag] at h
      split at h
      · rename_i hall
        cases h
        have hd : d = List.replicate d.length Config.dummy :=
          List.eq_replicate_iff.2 ⟨rfl, by simpa using hall⟩
        rw [encode, readAddressByte_of ab (Bool.not_eq_true _ ▸ hflag), ← hd]
      · cases h

/-- A command decodes from its own row's code only. -/
theorem encode_of_decodeCommand {p : Port} {i : Instr} (h : decodeCommand p = .ok i) :
    ∃ q : Port, encode i = .command q ∧ q.op = p.op := by
  unfold decodeCommand at h
  split at h
  case h_1 hop | h_4 hop | h_6 hop | h_7 hop =>
    split at h
    · cases h
      exact ⟨_, rfl, BitVec.eq_of_toNat_eq hop.symm⟩
    · cases h
  case h_19 => cases h
  all_goals
    rename_i hop
    cases h
    exact ⟨_, rfl, BitVec.eq_of_toNat_eq hop.symm⟩

/-- Settles O2: a frame is encoded back byte by byte; a command's row has one code, and the encoder's port decodes again. -/
theorem decodingLosesNothing : Obligations.DecodingLosesNothing := by
  refine ⟨fun bs i h => encode_of_decodeFrame h, fun p i h => ?_⟩
  obtain ⟨q, hq, hop⟩ := encode_of_decodeCommand h
  exact ⟨q, hq, hop, hq ▸ decode_encode i⟩

/-- Settles O3: the round trip at eight instructions, whose encodings are the words the tables write. -/
theorem tabulatedWordsDecode : Obligations.TabulatedWordsDecode :=
  ⟨decode_encode (.rdframe 0x0C#7 3), decode_encode (.wrframe 0x0F#7 [0x03#8]), decode_encode (.xfer 0xA5#8),
    decode_encode (.rdregs 0x0C#7 3), decode_encode (.dectc 0xF0#8 0x60#8 0x1F#8), decode_encode (.setavg 0b010#3),
    decode_encode (.setnf true), decode_encode .rdfault⟩

/-- The codes outside the table of R63. -/
def reservedOps : List Nat := [0x05, 0x06, 0x07, 0x0A, 0x0B, 0x0C, 0x0D, 0x0E, 0x0F, 0x1B, 0x1C, 0x1D, 0x1E, 0x1F]

theorem decodeCommand_of_reserved {p : Port} (h : p.op.toNat ∈ reservedOps) :
    decodeCommand p = .error (.reservedOp p.op) := by
  simp only [reservedOps, List.mem_cons, List.not_mem_nil, or_false] at h
  rcases h with h | h | h | h | h | h | h | h | h | h | h | h | h | h <;> simp [decodeCommand, h]

/-- Only the decoder's last arm rejects a code as reserved, and that arm is reached by the codes outside the table. -/
theorem reserved_of_decodeCommand {p : Port} {op : BitVec 5} (h : decodeCommand p = .error (.reservedOp op)) :
    p.op.toNat ∈ reservedOps := by
  unfold decodeCommand at h
  split at h
  case h_1 | h_4 | h_6 | h_7 => split at h <;> cases h
  case h_19 =>
    have hlt : p.op.toNat < 32 := p.op.isLt
    simp only [reservedOps, List.mem_cons, List.not_mem_nil, or_false]
    simp only [imp_false] at *
    omega
  all_goals cases h

/-- Settles O7: the 128 addresses, evaluated. -/
theorem addressByteHoldsFlagAndAddress : Obligations.AddressByteHoldsFlagAndAddress := by
  unfold Obligations.AddressByteHoldsFlagAndAddress
  decide

end Sys2Proof.Machine

namespace Sys2Proof.Machine

/-! ### One step, by what stands at the port (00_scope.md R7b, 60_exceptions.md R122, 70_reset_and_hazards.md R134) -/

section
variable {s : State} {p : Presented} {rest : List Presented}

theorem step_of_nothing_presented (hhost : s.host = []) : step s = .next s := by
  simp [step, fetch, hhost]

theorem step_of_busy (hhost : s.host = p :: rest) (hphase : s.phase ≠ .idle) : step s = .refused .busy := by
  simp [step, fetch, hhost, hphase]

theorem step_of_decoded {i : Instr} (hhost : s.host = p :: rest) (hphase : s.phase = .idle) (hdecode : decode p = .ok i) :
    step s = exec i { s with host := rest } := by
  simp only [step, fetch, hhost, hphase, hdecode, if_true]

theorem step_of_rejected {r : Reject} (hhost : s.host = p :: rest) (hphase : s.phase = .idle)
    (hdecode : decode p = .error r) : step s = .refused (.rejected r) := by
  simp [step, fetch, hhost, hphase, hdecode]

end

/-- Settles O4: the decoder's last arm is that of the fourteen reserved codes. -/
theorem reservedCommandCodesAreRefused : Obligations.ReservedCommandCodesAreRefused :=
  ⟨fun _ _ _ hop hhost hphase => step_of_rejected hhost hphase (decodeCommand_of_reserved hop),
    fun _ hop _ h => hop (reserved_of_decodeCommand h)⟩

/-- Settles O5: with PHASE IDLE the fetch accepts what decodes and takes it from the port. -/
theorem stepRunsTheDecodedInstruction : Obligations.StepRunsTheDecodedInstruction :=
  fun _ _ _ _ => step_of_decoded

/-- Settles O6: the fetch's two other branches, an empty port and a busy block. -/
theorem stepWaitsOrDoesNotAccept : Obligations.StepWaitsOrDoesNotAccept :=
  ⟨fun _ => step_of_nothing_presented, fun _ _ _ => step_of_busy⟩

/-- Settles O49: the fields are reset's own, and reset presents nothing. -/
theorem resetIsIdleAndSilent : Obligations.ResetIsIdleAndSilent :=
  ⟨rfl, rfl, rfl, rfl, rfl, rfl, step_of_nothing_presented rfl⟩

end Sys2Proof.Machine

namespace Sys2Proof.Machine

/-! ### The invariant between commands (40_transport.md R86, 10_state.md R20) -/

/-- Settles O48: the launch levels are the quiescent ones, no test target is attached, the registers are empty. -/
theorem resetHasTheInvariant : Obligations.ResetHasTheInvariant := by
  refine ⟨⟨rfl, rfl, fun _ => rfl, rfl, rfl⟩, ⟨rfl, by decide, fun m hm => ?_⟩, by decide, by decide⟩
  cases hm

/-- An exchange outside a frame, where the chip ignores the byte (40_transport.md R80). -/
theorem accept_of_rx_idle (p : Params) {c : Chip} (h : c.rx = .idle) (b : Byte) : c.accept p b = c := by
  rw [Chip.accept, h]

theorem bitsAfter_le (m : Mode) {n : Nat} (h : n ≤ Config.bitsPerByte) : bitsAfter m n ≤ Config.bitsPerByte := by
  cases m with
  | hw => exact h
  | sw => exact le_rfl

/-- An exchange between commands leaves CS_N, the bus, PHASE and the chip alone, and the clock idle. -/
theorem Inv.xfer {s : State} (h : Inv s) (v : Byte) (r : Result) : Inv (giveResult r (xfer v s)) := by
  obtain ⟨⟨hcs, hbus, hsck, hphase, hrx⟩, hcfg, hbits, hbuf⟩ := h
  rw [xfer_eq, accept_of_rx_idle s.par hrx]
  refine ⟨⟨hcs, hbus, fun hsw => ?_, hphase, hrx⟩, hcfg, bitsAfter_le _ hbits, hbuf⟩
  have hsw' : s.cfg.mode = .sw := hsw
  simp [giveResult, clockAfter, hsw']

/-- Complete frames return idle, keep the handle and the target's canonical form, and fill RBUF up to its bound. -/
theorem FramesRun.inv {i : Instr} {s t : State} (hrun : FramesRun i s t) (h : Inv s) : Inv t := by
  obtain ⟨⟨-, hbus, -, -, -⟩, ⟨hset, hlegal, htarget⟩, hbits, hbuf⟩ := h
  obtain ⟨hcs, hphase, hrx, hhw, hsw⟩ := hrun.returnsIdle
  obtain ⟨hcfg, hpar, -⟩ := hrun.keepsHandle
  have hbuf' := hrun.buffer (legal_maxCount _ hlegal) hbuf
  refine ⟨⟨hcs, ?_, fun hm => ?_, hphase, hrx⟩, ⟨by rw [hcfg, hset], by rw [hpar, hlegal], hrun.target htarget⟩,
    ?_, by rw [hpar]; exact hbuf'⟩
  · cases hm : s.cfg.mode with
    | hw =>
      obtain ⟨hreleased, -⟩ := hhw hm
      exact hreleased
    | sw =>
      obtain ⟨huntouched, -⟩ := hsw hm
      exact huntouched.trans hbus
  · rw [hcfg] at hm
    obtain ⟨-, hclock, -⟩ := hsw hm
    exact hclock
  · cases hm : s.cfg.mode with
    | hw =>
      obtain ⟨-, -, -, hsame⟩ := hhw hm
      rw [hsame]
      exact hbits
    | sw =>
      obtain ⟨-, -, height⟩ := hsw hm
      exact height.le

theorem exec_inv {i : Instr} {s t : State} (h : Inv s) (hexec : exec i s = .next t) : Inv t := by
  obtain ⟨v, -, -, rfl⟩ | ⟨b0, b1, b2, -, rfl⟩ | ⟨b0, b1, -, rfl⟩ | ⟨-, -, -, hframes⟩ := exec_cases hexec
  · exact h.xfer v _
  · exact h
  · exact h
  · exact hframes.inv h

/-- Settles O47: waiting changes nothing; taking an item from the port touches nothing the invariant speaks of, and every command
keeps it. -/
theorem everyStepKeepsTheInvariant : Obligations.EveryStepKeepsTheInvariant := by
  intro s t h hstep
  obtain ⟨-, rfl⟩ | ⟨_, rest, i, -, -, -, hexec⟩ := step_cases hstep
  · exact h
  · have h' : Inv { s with host := rest } := h
    exact exec_inv h' hexec

/-! ### Brackets and delays (40_transport.md R78, 10_state.md R25) -/

/-- XFER in SW mode is its eight pulses; in HW mode it is refused (R80). -/
theorem exec_xfer_sw (v : Byte) {s : State} (hsw : s.cfg.mode = .sw) :
    exec (.xfer v) s = .next (giveResult (.byte (xfer v s).work.rxsr) (xfer v s)) := by
  simp [exec, execXfer, hsw]

theorem exec_xfer_hw (v : Byte) {s : State} (hhw : s.cfg.mode = .hw) :
    exec (.xfer v) s = .refused .xferWithoutBus := by
  simp [exec, execXfer, hhw]

theorem xfer_trace (v : Byte) (s : State) :
    (xfer v s).trace = s.trace ++ exchangeEvents s.cfg.mode v (received s.cfg.mode s.chip.reply s.env).1 := by
  rw [xfer_eq]

/-- The pulses of an SW exchange are pin events. -/
theorem exchangeEvents_sw_pins (o i : Byte) :
    ∀ e ∈ exchangeEvents .sw o i, (∃ l, e = .sck l) ∨ (∃ l, e = .mosi l) ∨ (∃ l, e = .miso l) := by
  intro e he
  obtain ⟨t, -, he⟩ := List.mem_flatMap.1 he
  simp only [List.mem_cons, List.not_mem_nil, or_false] at he
  rcases he with rfl | rfl | rfl | rfl
  · exact .inl ⟨_, rfl⟩
  · exact .inr (.inl ⟨_, rfl⟩)
  · exact .inl ⟨_, rfl⟩
  · exact .inr (.inr ⟨_, rfl⟩)

/-- The events of complete frames form complete brackets. -/
theorem Ran.wellBracketed {s t : State} {l : List ByteEvent} {ws : List Nat} (h : Ran s t l ws) :
    ∃ evs, t.trace = s.trace ++ evs ∧ WellBracketed s.cfg.mode evs ∧ delays evs = ws := by
  obtain ⟨evs, htrace, -, hbracket, hdelays⟩ := h.events
  have hwell : WellBracketed s.cfg.mode evs := by
    rw [WellBracketed, ← List.append_nil evs, hbracket]
    rfl
  exact ⟨evs, htrace, hwell, hdelays⟩

/-- Settles O50: the decoder commands emit nothing, every other command but XFER runs complete frames, and XFER's events are those
of one exchange. -/
theorem everyCommandsEventsAreWellBracketed : Obligations.EveryCommandsEventsAreWellBracketed := by
  refine ⟨fun i s t hi hexec => ?_, fun v s t hexec => ?_⟩
  · obtain ⟨v, rfl, -⟩ | ⟨b0, b1, b2, -, rfl⟩ | ⟨b0, b1, -, rfl⟩ | ⟨-, -, -, hframes⟩ := exec_cases hexec
    · exact absurd rfl (hi v)
    · exact ⟨[], (List.append_nil _).symm, rfl⟩
    · exact ⟨[], (List.append_nil _).symm, rfl⟩
    · obtain ⟨l, ws, hran, -⟩ := hframes.ran
      obtain ⟨evs, htrace, hwell, -⟩ := hran.wellBracketed
      exact ⟨evs, htrace, hwell⟩
  · cases hm : s.cfg.mode with
    | hw => rw [exec_xfer_hw v hm] at hexec; cases hexec
    | sw =>
      rw [exec_xfer_sw v hm] at hexec
      cases hexec
      exact ⟨_, by rw [giveResult_trace, xfer_trace, hm], exchangeEvents_sw_pins _ _⟩

/-- Settles O12: the HW branch of XFER. -/
theorem bareXferInHardwareModeIsRefused : Obligations.BareXferInHardwareModeIsRefused :=
  fun _ v hhw => exec_xfer_hw v hhw

end Sys2Proof.Machine

namespace Sys2Proof.Machine

/-! ### The working registers, RESULT and the data-out line are dead between commands (10_state.md R20) -/

/-- Two outcomes that agree but for the dead registers: the same refusal, or next states that agree, and the same result where the
command hands one back. -/
inductive Alike (handsBack : Prop) : (o o' : Host.Outcome State Fault Refusal) → Prop where
  | next {t t' : State} (h : Agree t t') (hresult : handsBack → t'.result = t.result) : Alike handsBack (.next t) (.next t')
  | refused (e : Refusal) : Alike handsBack (.refused e) (.refused e)

/-- Every command but the two wire frames hands a result to the host (log 11). -/
def HandsBack (i : Instr) : Prop := (∀ a n, i ≠ .rdframe a n) ∧ (∀ a d, i ≠ .wrframe a d)

theorem agree_of_dead (s : State) (w : Work) (r : Result) (l : Bit) :
    Agree s { s with work := w, result := r, mosi := l } :=
  ⟨rfl, rfl, rfl, rfl, rfl, rfl, rfl, rfl, rfl, rfl⟩

section
variable {P : Prop} {s s' t t' : State}

/-- The map check reads the chip alone. -/
theorem Alike.onTarget (hs : Agree s s') (fs : List (Addr × Nat)) (ht : Agree t t') (hresult : P → t'.result = t.result) :
    Alike P (onTarget fs s t) (onTarget fs s' t') := by
  rw [hs.onTarget, Machine.onTarget]
  split
  · exact .next ht hresult
  · exact .refused _

/-- The count check reads the parameters alone. -/
theorem Alike.countChecked (hs : Agree s s') (n : Nat) {go go' : Host.Outcome State Fault Refusal} (h : Alike P go go') :
    Alike P (countChecked n s go) (countChecked n s' go') := by
  unfold Machine.countChecked
  rw [hs.par]
  split
  · exact h
  · exact .refused _

theorem Alike.onTarget_giveResult (hs : Agree s s') (fs : List (Addr × Nat)) (r : Result) (ht : Agree t t') :
    Alike P (Machine.onTarget fs s (giveResult r t)) (Machine.onTarget fs s' (giveResult r t')) :=
  .onTarget hs fs (ht.giveResult r) fun _ => rfl

theorem Alike.getRegister (hs : Agree s s') (a : Addr) (r : Byte → Result) :
    Alike P (getRegister a r s) (getRegister a r s') := by
  obtain ⟨ht, hbuf⟩ := hs.readFrame a 1
  rw [Machine.getRegister, Machine.getRegister, rbufByte_congr hbuf]
  exact .onTarget_giveResult hs _ _ ht

theorem Alike.setRegister (hs : Agree s s') (a : Addr) (f : Byte → Byte) :
    Alike P (setRegister a f s) (setRegister a f s') :=
  .onTarget_giveResult hs _ _ (hs.rmw a f)

theorem Alike.xfer (hs : Agree s s') (v : Byte) : Alike P (execXfer v s) (execXfer v s') := by
  obtain ⟨ht, hbyte⟩ := hs.xfer v
  unfold execXfer
  rw [hs.cfg]
  split
  · exact .refused _
  · exact .next (hbyte ▸ ht.giveResult _) fun _ => congrArg Result.byte hbyte

theorem decodeLinear_result (b0 b1 b2 : Byte) (s : State) :
    (decodeLinear b0 b1 b2 s).result = .float (toFloat (linearUnits b0 b1 b2) Config.tcDivLog) := rfl

theorem decodeColdJunction_result (b0 b1 : Byte) (s : State) :
    (decodeColdJunction b0 b1 s).result = .float (toFloat (sext 16 (raw16 b0 b1)) Config.cjDivLog) := rfl

theorem Alike.rdtc (hs : Agree s s') : Alike P (execRdtc s) (execRdtc s') := by
  obtain ⟨ht, hbuf⟩ := hs.trigger.readFrame s.par.addrLtc 3
  simp only [execRdtc, hs.par, rbufByte_congr hbuf]
  exact .countChecked hs _ (.onTarget hs _ (ht.decodeLinear _ _ _) fun _ => by simp only [decodeLinear_result])

theorem Alike.rdcj (hs : Agree s s') : Alike P (execRdcj s) (execRdcj s') := by
  obtain ⟨ht, hbuf⟩ := hs.trigger.readFrame s.par.addrCjt 2
  simp only [execRdcj, hs.par, rbufByte_congr hbuf]
  exact .countChecked hs _ (.onTarget hs _ (ht.decodeColdJunction _ _) fun _ => by simp only [decodeColdJunction_result])

theorem Alike.rdregs (hs : Agree s s') (a : Addr) (n : Nat) : Alike P (execRdregs a n s) (execRdregs a n s') := by
  obtain ⟨ht, hbuf⟩ := hs.readFrame a n
  simp only [execRdregs, hbuf]
  exact .countChecked hs _ (.onTarget_giveResult hs _ _ ht)

end

theorem exec_rdreg (a : Addr) (s : State) : exec (.rdreg a) s = getRegister a .byte s := rfl

/-- From states that agree but for the dead registers, every command has outcomes that do. -/
theorem exec_alike (i : Instr) {s s' : State} (hs : Agree s s') : Alike (HandsBack i) (exec i s) (exec i s') := by
  cases i with
  | rdframe a n =>
    obtain ⟨ht, -⟩ := hs.readFrame a n
    exact .countChecked hs _ (.onTarget hs _ ht fun hback => absurd rfl (hback.1 a n))
  | wrframe a d =>
    exact .countChecked hs _ (.onTarget hs _ (hs.writeFrame a d) fun hback => absurd rfl (hback.2 a d))
  | xfer v => exact .xfer hs v
  | rdreg a => rw [exec_rdreg, exec_rdreg]; exact .getRegister hs a _
  | rdregs a n => exact .rdregs hs a n
  | wrreg a d => exact .onTarget_giveResult hs _ _ (hs.writeFrame a [d])
  | wrregs a d => exact .countChecked hs _ (.onTarget_giveResult hs _ _ (hs.writeFrame a d))
  | dectc b0 b1 b2 => exact .next (hs.decodeLinear b0 b1 b2) fun _ => rfl
  | deccj b0 b1 => exact .next (hs.decodeColdJunction b0 b1) fun _ => rfl
  | beginDev =>
    simp only [exec, execBegin, setType, hs.idleLines.par, hs.par, hs.cfg]
    exact .onTarget_giveResult hs _ _ (hs.idleLines.rmw _ _)
  | settc ty => rw [exec_settc, exec_settc, hs.par]; exact .setRegister hs _ _
  | gettc => rw [exec_gettc, exec_gettc, hs.par]; exact .getRegister hs _ _
  | setavg sel => rw [exec_setavg, exec_setavg, hs.par]; exact .setRegister hs _ _
  | getavg => rw [exec_getavg, exec_getavg, hs.par]; exact .getRegister hs _ _
  | setnf f => rw [exec_setnf, exec_setnf, hs.par]; exact .setRegister hs _ _
  | getnf => rw [exec_getnf, exec_getnf, hs.par]; exact .getRegister hs _ _
  | trig =>
    simp only [exec, execTrig, hs.par]
    exact .onTarget_giveResult hs _ _ hs.trigger
  | rdtc => exact .rdtc hs
  | rdcj => exact .rdcj hs
  | rdfault => rw [exec_rdfault, exec_rdfault, hs.par]; exact .getRegister hs _ _

/-- Settles O51: the two starting states agree, so the two outcomes are alike. -/
theorem workingRegistersAreDeadBetweenCommands : Obligations.WorkingRegistersAreDeadBetweenCommands := by
  intro i s w r l
  have halike := exec_alike i (agree_of_dead s w r l)
  refine ⟨fun t hexec => ?_, fun e hexec => ?_⟩
  · rw [hexec] at halike
    generalize exec i { s with work := w, result := r, mosi := l } = o' at halike ⊢
    cases halike with
    | next h hresult =>
      exact ⟨_, rfl, h.trace, h.chip, h.env, h.csN, h.sck, h.busHeld, h.phase, h.cfg, h.par, h.host,
        fun hread hwrite => hresult ⟨hread, hwrite⟩⟩
  · rw [hexec] at halike
    generalize exec i { s with work := w, result := r, mosi := l } = o' at halike ⊢
    cases halike with
    | refused => rfl

end Sys2Proof.Machine

namespace Sys2Proof.Machine

/-! ### The wait of a conversion (42_controller.md R106, R111, R112) -/

/-- `count_of` saturates at sixteen samples. -/
theorem countOf_eq_two_pow (sel : Nat) : countOf sel = 2 ^ min sel 4 := by
  rw [countOf_eq]
  split
  · rw [min_eq_left ‹_›]
  · rw [min_eq_right (by omega)]
    rfl

theorem waitMs_eq (c0 c1 : Byte) :
    waitMs c0 c1 =
      if c0.toNat % 2 = 1 then 185 + (2 ^ min (c1.toNat / 16 % 8) 4 - 1) * 40
      else 155 + (2 ^ min (c1.toNat / 16 % 8) 4 - 1) * 34 := by
  simp only [waitMs, extractFilter_eq, extractSelector_eq, countOf_eq_two_pow, decide_eq_true_eq]
  rfl

/-- Two filter settings times five exponents give the ten entries of the table. -/
theorem waitMs_mem_table (c0 c1 : Byte) : waitMs c0 c1 ∈ [155, 189, 257, 393, 665, 185, 225, 305, 465, 785] := by
  rw [waitMs_eq]
  have hexp : min (c1.toNat / 16 % 8) 4 ≤ 4 := min_le_right _ _
  generalize min (c1.toNat / 16 % 8) 4 = e at hexp ⊢
  split <;> interval_cases e <;> decide

/-- Settles O40: the arithmetic form of the wait, and a pair of registers for each entry of the table. -/
theorem waitTimesAreThoseOfTheTable : Obligations.WaitTimesAreThoseOfTheTable := by
  refine ⟨waitMs_eq, waitMs_mem_table, fun w hw => ?_⟩
  simp only [List.mem_cons, List.not_mem_nil, or_false] at hw
  rcases hw with rfl | rfl | rfl | rfl | rfl | rfl | rfl | rfl | rfl | rfl
  · exact ⟨0x00#8, 0x00#8, by decide⟩
  · exact ⟨0x00#8, 0x10#8, by decide⟩
  · exact ⟨0x00#8, 0x20#8, by decide⟩
  · exact ⟨0x00#8, 0x30#8, by decide⟩
  · exact ⟨0x00#8, 0x40#8, by decide⟩
  · exact ⟨0x01#8, 0x00#8, by decide⟩
  · exact ⟨0x01#8, 0x10#8, by decide⟩
  · exact ⟨0x01#8, 0x20#8, by decide⟩
  · exact ⟨0x01#8, 0x30#8, by decide⟩
  · exact ⟨0x01#8, 0x40#8, by decide⟩

/-- Settles O52: XFER's pulses and the decoder commands ask for no wait; complete frames ask for one exactly if the command starts
a conversion. -/
theorem onlyConversionsAskForADelay : Obligations.OnlyConversionsAskForADelay := by
  intro i s t hexec
  obtain ⟨v, rfl, -, rfl⟩ | ⟨b0, b1, b2, rfl, rfl⟩ | ⟨b0, b1, rfl, rfl⟩ | ⟨-, -, -, hframes⟩ := exec_cases hexec
  · exact ⟨_, xfer_trace v s, delays_exchange _ _ _⟩
  · exact ⟨[], (List.append_nil _).symm, rfl⟩
  · exact ⟨[], (List.append_nil _).symm, rfl⟩
  · obtain ⟨l, ws, hran, hws⟩ := hframes.ran
    obtain ⟨evs, htrace, -, hdelays⟩ := hran.wellBracketed
    refine ⟨evs, htrace, ?_⟩
    unfold startsConversion at hws
    rcases hws with ⟨rfl, hnot⟩ | ⟨c0, c1, rfl, hconv⟩
    · rwa [if_neg hnot]
    · rw [if_pos hconv]
      exact ⟨waitMs c0 c1, waitMs_mem_table c0 c1, hdelays⟩

end Sys2Proof.Machine

namespace Sys2Proof.Machine

/-! ### A most-significant-first receiver on the software path (70_reset_and_hazards.md R144) -/

/-- `rev8` exchanges bit i and bit 7 - i: the receiver takes the levels in the other order. -/
theorem rev8_getLsbD (v : Byte) {i : Nat} (hi : i < 8) : (rev8 v).getLsbD i = v.getLsbD (7 - i) := by
  have hrev : (serialise .lsbFirst v).reverse = serialise .msbFirst v := by
    rw [← serialise_msb_reverse, List.reverse_reverse]
  rw [rev8, deserialise_msb_getLsbD _ hi, hrev, List.getD_eq_getElem?_getD, serialise_getElem? _ _ hi]
  rfl

theorem rev8_rev8 (v : Byte) : rev8 (rev8 v) = v := by
  apply BitVec.eq_of_getLsbD_eq
  intro i hi
  rw [rev8_getLsbD _ hi, rev8_getLsbD _ (by omega)]
  congr 1
  omega

/-- Settles O9: either line of an SW exchange carries the byte's least-significant-first levels. -/
theorem softwarePathLooksReversed : Obligations.SoftwarePathLooksReversed := by
  refine ⟨fun v i hi => rev8_getLsbD v hi, rev8_rev8, fun v r => ⟨?_, ?_⟩⟩
  · rw [dataOut_exchangeEvents_sw]; rfl
  · rw [dataIn_exchangeEvents_sw]; rfl

/-! ### XFER in SW mode (40_transport.md R79, R80, R88) -/

/-- What an exchange leaves in RXSR is the byte received. -/
theorem xfer_rxsr (v : Byte) (s : State) :
    (xfer v s).work.rxsr = (received s.cfg.mode s.chip.reply s.env).1 := by
  rw [xfer_eq]
  rfl

/-- Settles O10: the fields of the state one exchange leaves; outside a frame the chip ignores the byte. -/
theorem xferExchangesOneByteInSoftwareMode : Obligations.XferExchangesOneByteInSoftwareMode := by
  intro s v hsw
  refine ⟨_, (received .sw s.chip.reply s.env).1, exec_xfer_sw v hsw, ?_⟩
  rw [xfer_eq, hsw]
  exact ⟨rfl, rfl, rfl, rfl, rfl, rfl, rfl, ⟨rfl, rfl⟩, rfl, rfl, rfl, rfl, rfl, ⟨rfl, rfl, rfl⟩,
    fun hrx => accept_of_rx_idle s.par hrx v⟩

/-- In each pulse the sample follows the bit driven, so looped-back samples are the bits sent. -/
theorem loopedBack_pulses (v r : Byte) (ts : List Nat) (l : Bit) :
    LoopedBack l (ts.flatMap fun t =>
      [.sck false, .mosi (serialBit Config.swBitOrder v t), .sck true, .miso (serialBit Config.swBitOrder r t)]) →
      ∀ t ∈ ts, r.getLsbD t = v.getLsbD t := by
  induction ts generalizing l with
  | nil => simp
  | cons t rest ih =>
    rintro ⟨hbit, hrest⟩
    exact List.forall_mem_cons.2 ⟨hbit, ih _ hrest⟩

theorem eq_of_loopedBack_exchange {v r : Byte} {l : Bit} (h : LoopedBack l (exchangeEvents .sw v r)) : r = v := by
  apply BitVec.eq_of_getLsbD_eq
  intro i hi
  exact loopedBack_pulses v r bitTimes l h i (by rw [bitTimes_eq_range]; exact List.mem_range.2 hi)

/-- Settles O11: the events are those of one exchange, whose samples are then the bits of the byte sent. -/
theorem loopedBackXferReturnsTheByteSent : Obligations.LoopedBackXferReturnsTheByteSent := by
  intro s v hsw
  refine ⟨_, _, exec_xfer_sw v hsw, by rw [giveResult_trace, xfer_trace, hsw], fun hloop => ?_⟩
  rw [giveResult_result, xfer_rxsr, hsw, eq_of_loopedBack_exchange hloop]

end Sys2Proof.Machine

namespace Sys2Proof.Machine

/-! ### When the commands with an operand address complete, and when they are refused (20_memory.md R55, 30_encoding.md R69) -/

section
variable {s : State} {a : Addr} {n : Nat} {d : List Byte}

theorem exec_rdframe_next (hn : n ≤ s.par.maxCount) (hmap : s.onMap a n = true) :
    exec (.rdframe a n) s = .next (readFrame a n s) := by
  rw [exec, execRdframe, countChecked_next _ _ _ hn, one_onTarget _ _ _ _ hmap]

theorem exec_wrframe_next (hd : d.length ≤ s.par.maxCount) (hmap : s.onMap a d.length = true) :
    exec (.wrframe a d) s = .next (writeFrame a d s) := by
  rw [exec, execWrframe, countChecked_next _ _ _ hd, one_onTarget _ _ _ _ hmap]

theorem exec_rdregs_next (hn : n ≤ s.par.maxCount) (hmap : s.onMap a n = true) :
    exec (.rdregs a n) s = .next (giveResult (.bytes (readFrame a n s).work.rbuf) (readFrame a n s)) := by
  rw [exec, execRdregs, countChecked_next _ _ _ hn, one_onTarget _ _ _ _ hmap]

theorem exec_wrregs_next (hd : d.length ≤ s.par.maxCount) (hmap : s.onMap a d.length = true) :
    exec (.wrregs a d) s = .next (giveResult .nothing (writeFrame a d s)) := by
  rw [exec, execWrregs, countChecked_next _ _ _ hd, one_onTarget _ _ _ _ hmap]

theorem exec_rdreg_next (hmap : s.onMap a 1 = true) :
    exec (.rdreg a) s = .next (giveResult (.byte ((readFrame a 1 s).rbufByte 0)) (readFrame a 1 s)) := by
  rw [exec, execRdreg, one_onTarget _ _ _ _ hmap]

theorem exec_wrreg_next (b : Byte) (hmap : s.onMap a 1 = true) :
    exec (.wrreg a b) s = .next (giveResult .nothing (writeFrame a [b] s)) := by
  rw [exec, execWrreg, one_onTarget _ _ _ _ hmap]

/-- A frame off the map of the test target is refused before it begins. -/
theorem one_onTarget_refused (t : State) (hmap : s.onMap a n = false) : onTarget [(a, n)] s t = .refused .offTargetMap := by
  simp [onTarget, hmap]

theorem onMap_of_no_target (a : Addr) (n : Nat) (h : s.chip.fixture = none) : s.onMap a n = true :=
  (onMap_iff s a n).2 (.inl h)

theorem onMap_false_of_target {m : Memory} (h : s.chip.fixture = some m) (hoff : 15 < a.toNat + (n - 1)) :
    s.onMap a n = false := by
  refine Bool.eq_false_iff.2 fun hmap => ?_
  rcases (onMap_iff s a n).1 hmap with hnone | hlt
  · rw [h] at hnone
    cases hnone
  · rw [Config.nReg] at hlt
    omega

/-- A frame on the map of an attached target ends within it. -/
theorem frame_within_map {m : Memory} (hmap : s.onMap a n = true) (h : s.chip.fixture = some m) :
    a.toNat + n ≤ Config.nReg := by
  rcases (onMap_iff s a n).1 hmap with hnone | hlt
  · rw [h] at hnone
    cases hnone
  · omega

end

/-- Settles O22: the count is checked before anything else. -/
theorem countsAboveTheMaximumAreRefused : Obligations.CountsAboveTheMaximumAreRefused := by
  refine ⟨fun s a n d hn hd => ?_, fun s => ⟨countChecked_refused 3 s _, countChecked_refused 2 s _⟩⟩
  subst hd
  exact ⟨countChecked_refused _ s _ hn, countChecked_refused _ s _ hn, countChecked_refused _ s _ hn,
    countChecked_refused _ s _ hn⟩

/-! ### What one read frame and one write frame do to everything a command can show (40_transport.md R82, R84) -/

/-- From `s` to `t` one read frame at `a` has run, `x` received during the address byte and `ds` during the dummies. -/
structure ReadsFrame (s t : State) (a : Addr) (x : Byte) (ds : List Byte) : Prop where
  sends : Sends s t (linkFrame (readExchanges a x ds))
  buffer : t.work.rbuf = ds
  array : ∀ m, s.chip.fixture = some m → ∀ k, k < ds.length → ds[k]? = some (m.read (a.toNat + k))
  target : KeepsTarget s t
  decoder : KeepsDecoder s t
  dataHigh : s.cfg.mode = .sw → 0 < ds.length → t.mosi = true

/-- Every byte of the array, and the conversion, are as before once the chip differs in the frame's position only. -/
theorem keepsTarget_of_chip {s t : State} (h : t.chip = { s.chip with rx := .idle }) : KeepsTarget s t := by
  refine ⟨by rw [h], fun a => ?_⟩
  rw [peek_def, peek_def, h]

theorem readFrame_reads {s : State} {a : Addr} {n : Nat} (hmap : s.onMap a n = true) :
    ∃ x ds, ds.length = n ∧ ReadsFrame s (readFrame a n s) a x ds ∧ (readFrame a n s).result = s.result := by
  obtain ⟨x, ds, hran, rfl, hbuf, hdec, hchip, hres, harray, hmosi⟩ := readFrame_ran a n s
  refine ⟨x, ds, rfl, ⟨hran.sends, hbuf, fun m hm k hk => ?_, keepsTarget_of_chip hchip, hdec, hmosi⟩, hres⟩
  rw [harray m hm (frame_within_map hmap hm)]
  simp [hk]

theorem ReadsFrame.giveResult {s t : State} {a : Addr} {x : Byte} {ds : List Byte} (h : ReadsFrame s t a x ds) (r : Result) :
    ReadsFrame s (giveResult r t) a x ds := ⟨h.sends, h.buffer, h.array, h.target, h.decoder, h.dataHigh⟩

/-- From `s` to `t` one write frame of `d` at `a` has run, `x` received during the address byte and `rs` during the payload. -/
structure WritesFrame (s t : State) (a : Addr) (x : Byte) (d rs : List Byte) : Prop where
  sends : Sends s t (linkFrame (writeExchanges a x d rs))
  buffer : t.work.rbuf = s.work.rbuf
  decoder : KeepsDecoder s t
  array : ∀ b, t.peek b = if a.toNat ≤ b ∧ b < a.toNat + d.length
    then s.chip.fixture.map (fun _ => d.getD (b - a.toNat) 0#8) else s.peek b
  conversion : t.chip.conv = if a.toNat ≤ s.par.addrCr0.toNat ∧ s.par.addrCr0.toNat < a.toNat + d.length ∧
    d.getD (s.par.addrCr0.toNat - a.toNat) 0#8 &&& s.par.oneShotMask ≠ 0#8 then .converting else s.chip.conv

theorem writeFrame_writes {s : State} {a : Addr} {d : List Byte} (hmap : s.onMap a d.length = true) (hwf : TargetWf s) :
    ∃ x rs, rs.length = d.length ∧ WritesFrame s (writeFrame a d s) a x d rs ∧ (writeFrame a d s).result = s.result := by
  obtain ⟨x, rs, hran, hlen, hbuf, hdec, hchip, hres⟩ := writeFrame_ran a d s
  refine ⟨x, rs, hlen, ⟨hran.sends, hbuf, hdec, fun b => ?_, ?_⟩, hres⟩
  · have hwithin : s.chip.fixture = none ∨ a.toNat + 0 + d.length ≤ Config.nReg := by
      cases hf : s.chip.fixture with
      | none => exact .inl rfl
      | some m => exact .inr (frame_within_map hmap hf)
    have hread := afterWrite_read s.par a.toNat d 0 { s.chip with rx := .payload true a.toNat 0 } b hwf hwithin
    rw [peek_def, peek_def, hchip]
    simpa using hread
  · have hconv := afterWrite_conv s.par a.toNat d 0 { s.chip with rx := .payload true a.toNat 0 }
    rw [hchip]
    simpa using hconv

theorem WritesFrame.giveResult {s t : State} {a : Addr} {x : Byte} {d rs : List Byte} (h : WritesFrame s t a x d rs)
    (r : Result) : WritesFrame s (giveResult r t) a x d rs := ⟨h.sends, h.buffer, h.decoder, h.array, h.conversion⟩

/-- Settles O13: RDREGS is one read frame, its result RBUF. -/
theorem rdregsReadsOneFrame : Obligations.RdregsReadsOneFrame := by
  intro s a n hn hmap
  obtain ⟨x, ds, rfl, hreads, -⟩ := readFrame_reads hmap
  have hreads' := hreads.giveResult (.bytes (readFrame a ds.length s).work.rbuf)
  exact ⟨_, x, ds, exec_rdregs_next hn hmap, rfl, hreads'.sends, congrArg Result.bytes hreads.buffer, hreads'.buffer,
    hreads'.array, hreads'.target, hreads'.decoder, hreads'.dataHigh⟩

/-- Settles O14: WRREGS is one write frame. -/
theorem wrregsWritesOneFrame : Obligations.WrregsWritesOneFrame := by
  intro s a d hd hmap hwf
  obtain ⟨x, rs, hlen, hwrites, -⟩ := writeFrame_writes hmap hwf
  have hwrites' := hwrites.giveResult .nothing
  exact ⟨_, x, rs, exec_wrregs_next hd hmap, hlen, hwrites'.sends, rfl, hwrites'.buffer, hwrites'.decoder, hwrites'.array,
    hwrites'.conversion⟩

/-- Settles O18: the frames of RDREGS and WRREGS, and no result given. -/
theorem wireFramesGoOutAsTheyStand : Obligations.WireFramesGoOutAsTheyStand := by
  refine ⟨fun s a n hn hmap => ?_, fun s a d hd hmap hwf => ?_⟩
  · obtain ⟨x, ds, rfl, hreads, hres⟩ := readFrame_reads hmap
    exact ⟨_, x, ds, exec_rdframe_next hn hmap, rfl, hreads.sends, hreads.buffer, hres, hreads.array, hreads.target,
      hreads.decoder⟩
  · obtain ⟨x, rs, hlen, hwrites, hres⟩ := writeFrame_writes hmap hwf
    exact ⟨_, x, rs, exec_wrframe_next hd hmap, hlen, hwrites.sends, hwrites.buffer, hres, hwrites.decoder, hwrites.array,
      hwrites.conversion⟩

/-- Settles O15: both are the read frame of one byte, RDREG handing back the first byte of RBUF and RDREGS all of it. -/
theorem rdregIsRdregsOfOne : Obligations.RdregIsRdregsOfOne := by
  intro s a hmax hmap
  obtain ⟨x, d, -, hbuf, hbyte, -⟩ := readOne_ran a s
  refine ⟨readFrame a 1 s, d, ?_, ?_⟩
  · rw [exec_rdregs_next hmax hmap, hbuf]; rfl
  · rw [exec_rdreg_next hmap, hbyte]; rfl

/-- Settles O16: RDREG is the read frame of one byte. -/
theorem rdregReadsOneByte : Obligations.RdregReadsOneByte := by
  intro s a hmap
  obtain ⟨x, ds, hlen, hreads, -⟩ := readFrame_reads hmap
  obtain ⟨d, rfl⟩ := List.length_eq_one_iff.1 hlen
  have hbyte : (readFrame a 1 s).rbufByte 0 = d := by rw [State.rbufByte, hreads.buffer]; rfl
  have hreads' := hreads.giveResult (.byte ((readFrame a 1 s).rbufByte 0))
  refine ⟨_, x, d, exec_rdreg_next hmap, hreads'.sends, congrArg Result.byte hbyte, hreads'.buffer, fun m hm => ?_,
    hreads'.target, hreads'.decoder⟩
  simpa using hreads.array m hm 0 Nat.one_pos

/-- A chip that took one byte `b` at `a` has started a conversion exactly if that is CR0 and the one-shot bit is set. -/
theorem wrote_conv (p : Params) (a : Addr) (b : Byte) (c : Chip) :
    (Chip.wrote p a.toNat b c).conv = if a = p.addrCr0 ∧ b &&& p.oneShotMask ≠ 0#8 then .converting else c.conv := by
  simp only [Chip.wrote, Chip.started, BitVec.toNat_inj]

/-- The address of a one-byte frame on the map is on the map. -/
theorem address_on_map {s : State} {a : Addr} (hmap : s.onMap a 1 = true) :
    s.chip.fixture = none ∨ a.toNat < Config.nReg := (onMap_iff s a 1).1 hmap

/-- Settles O17: WRREG and WRREGS of the one-element list are the same write frame. -/
theorem wrregWritesOneByte : Obligations.WrregWritesOneByte := by
  intro s a d hmap hwf
  obtain ⟨x, y, hran, hbuf, hdec, hchip, -⟩ := writeOne_ran a d s
  have hstores := wrote_stores s (writeFrame a [d] s) a.toNat d s.par s.chip rfl hchip hwf (address_on_map hmap)
  exact ⟨_, x, y, exec_wrreg_next d hmap, hran.sends, rfl, hbuf, hdec, hstores, hchip ▸ wrote_conv s.par a d s.chip,
    fun hmax => exec_wrregs_next (d := [d]) hmax hmap⟩

/-- Settles O23: without a test target every frame is on the map; with one, each command's check fails. -/
theorem framesOffTheMapAreSentUnlessTheTestTargetIsThere :
    Obligations.FramesOffTheMapAreSentUnlessTheTestTargetIsThere := by
  intro s a n hn hoff
  refine ⟨fun hnone => ?_, fun m hm => ?_⟩
  · have hmap := onMap_of_no_target a n hnone
    obtain ⟨x, ds, rfl, hreads, -⟩ := readFrame_reads hmap
    exact ⟨_, x, ds, exec_rdregs_next hn hmap, rfl, hreads.sends, congrArg Result.bytes hreads.buffer⟩
  · have hmap := onMap_false_of_target hm hoff
    have hrefused : ∀ t, countChecked n s (onTarget [(a, n)] s t) = .refused .offTargetMap := fun t => by
      rw [countChecked_next _ _ _ hn, one_onTarget_refused t hmap]
    refine ⟨hrefused _, hrefused _, fun d hd => ?_, fun ha => ?_⟩
    · subst hd
      exact ⟨hrefused _, hrefused _⟩
    · have hmap1 : s.onMap a 1 = false := onMap_false_of_target hm ha
      exact ⟨one_onTarget_refused _ hmap1, fun b => one_onTarget_refused _ hmap1⟩

/-! ### Every event of a frame, in order (40_transport.md R78) -/

theorem frameEvents_hw {c : Cfg} (hm : c.mode = .hw) (xs : List (Byte × Byte)) :
    frameEvents c xs =
      [.busBegin c.busSettings, .cs false] ++ xs.map (fun x => .busXfer x.1 x.2) ++ [.cs true, .busEnd] := by
  simp only [frameEvents, openEvents, closeEvents, exchangeEvents, hm, List.map_eq_flatMap]

theorem frameEvents_sw {c : Cfg} (hm : c.mode = .sw) (xs : List (Byte × Byte)) :
    frameEvents c xs = [.cs false] ++ xs.flatMap (fun x => exchangeEvents .sw x.1 x.2) ++ [.cs true] := by
  simp only [frameEvents, openEvents, closeEvents, hm]

theorem readFrame_events (a : Addr) (n : Nat) (s : State) :
    ∃ x ds, ds.length = n ∧ (readFrame a n s).work.rbuf = ds ∧
      (readFrame a n s).trace = s.trace ++ frameEvents s.cfg (readExchanges a x ds) := by
  obtain ⟨w, heq, hbuf, -⟩ := readFrame_eq a n s
  exact ⟨_, _, payloadReceived_length _ _ _ _ _ _, by rw [heq, hbuf], by rw [heq]⟩

theorem writeFrame_events (a : Addr) (d : List Byte) (s : State) :
    ∃ x rs, rs.length = d.length ∧
      (writeFrame a d s).trace = s.trace ++ frameEvents s.cfg (writeExchanges a x d rs) := by
  obtain ⟨w, heq, -⟩ := writeFrame_eq a d s
  exact ⟨_, _, dropped_length _ _ _, by rw [heq]⟩

/-- Settles O19: the events of the frame, its bracket and exchanges written out in each mode. -/
theorem framesAreBracketedEventByEvent : Obligations.FramesAreBracketedEventByEvent := by
  refine ⟨fun s a n hn hmap => ?_, fun s a d hd hmap => ?_⟩
  · obtain ⟨x, ds, hlen, hbuf, htrace⟩ := readFrame_events a n s
    refine ⟨_, x, ds, exec_rdregs_next hn hmap, hlen, congrArg Result.bytes hbuf, fun hm => ?_, fun hm => ?_⟩
    · rw [giveResult_trace, htrace, frameEvents_hw hm]
      simp [readExchanges, Config.dummy]
    · rw [giveResult_trace, htrace, frameEvents_sw hm]
      simp [readExchanges, Config.dummy, List.flatMap_map]
  · obtain ⟨x, rs, hlen, htrace⟩ := writeFrame_events a d s
    refine ⟨_, x, rs, exec_wrregs_next hd hmap, hlen, rfl, fun hm => ?_, fun hm => ?_⟩
    · rw [giveResult_trace, htrace, frameEvents_hw hm]
      simp [writeExchanges]
    · rw [giveResult_trace, htrace, frameEvents_sw hm]
      simp [writeExchanges]

/-! ### Inside a read frame (10_state.md R20, 40_transport.md R82) -/

/-- The payload loop, cut at any point. -/
theorem readPayload_add (n j k : Nat) (s : State) :
    readPayload (n + j) k s = readPayload j (k + n) (readPayload n k s) := by
  induction n generalizing k s with
  | zero => rw [Nat.zero_add]; rfl
  | succ n ih =>
    rw [Nat.succ_add, readPayload, readPayload, ih]
    congr 1
    omega

theorem readByte_byteIdx (k : Nat) (s : State) : (readByte k s).work.byteIdx = k := by
  simp only [readByte, xfer_eq, exchanged]

/-- BYTEIDX is the index of the byte last moved. -/
theorem readPayload_byteIdx (n k : Nat) (s : State) : (readPayload (n + 1) k s).work.byteIdx = k + n := by
  rw [readPayload_add n 1 k s]
  exact readByte_byteIdx _ _

/-- Settles O20: the loop of `k` bytes leaves phase, lines and bus as the address byte left them, and the loop of the remaining
`n - k` bytes goes on from there. -/
theorem readFrameAdvancesByteByByte : Obligations.ReadFrameAdvancesByteByByte := by
  intro s a n k hk s0 s1 u
  have hs1 : s1 = addressed (readAddressByte a) s := addressed_eq _ s
  have hacc := accept_readAddress s.par { s.chip with rx := .address } a rfl
  obtain ⟨w, heq, hbuf, -⟩ := readPayload_eq k 0 a.toNat { s1 with work := { s1.work with rbuf := [] } }
    (by simp only [hs1, addressed, hacc])
  have hu : u = _ := heq
  refine ⟨?_, ?_, fun hm => ?_, ?_, ?_, fun hm => ?_, fun hm => ?_, ?_, fun hpos => ?_, ?_⟩
  · simp only [s0, frameBegin_eq, setPhase_phase]
  · simp only [s0, frameBegin_eq]
  · simp only [s0, frameBegin_eq, setPhase_cfg, hm]
  · simp only [hu, hs1, addressed]
  · simp only [hu, hs1, addressed]
  · simp only [hu, hs1, addressed, heldInside, hm]
  · simp only [hu, hs1, addressed, clockAfter, hm, ite_self]
  · rw [hu]
    simp only [hbuf, List.nil_append, payloadReceived_length]
  · obtain ⟨j, rfl⟩ := Nat.exists_eq_add_of_lt hpos
    simp only [u, Nat.zero_add, readPayload_byteIdx]
  · have hloop := readPayload_add k (n - k) 0 { s1 with work := { s1.work with rbuf := [] } }
    rw [Nat.add_sub_cancel' hk, Nat.zero_add] at hloop
    rw [← hloop]
    rfl

end Sys2Proof.Machine

namespace Sys2Proof.Machine

/-! ### The decoder's results as numbers (41_decoder.md R96 to R100) -/

/-- A larger scaled code is a larger number. -/
theorem toFloat_lt_iff {q r : Int} {k : Nat} : toFloat q k < toFloat r k ↔ q < r := by
  rw [toFloat_eq_div, toFloat_eq_div, div_lt_div_iff_of_pos_right (by positivity), Int.cast_lt]

theorem toFloat_inj {q r : Int} {k : Nat} : toFloat q k = toFloat r k ↔ q = r := by
  rw [toFloat_eq_div, toFloat_eq_div, div_left_inj' (by positivity), Int.cast_inj]

/-- The cold-junction code, its sign read off the first byte. -/
theorem sext_raw16 (b0 b1 : Byte) :
    sext 16 (raw16 b0 b1) = (b0.toNat * 256 + b1.toNat : Int) - (if b0.toNat < 128 then 0 else 2 ^ 16) := by
  have h1 := b1.isLt
  rw [sext, raw16_eq]
  split <;> split <;> omega

theorem sext_raw16_bounds (b0 b1 : Byte) : -32768 ≤ sext 16 (raw16 b0 b1) ∧ sext 16 (raw16 b0 b1) ≤ 32767 := by
  have h0 := b0.isLt
  have h1 := b1.isLt
  rw [sext_raw16]
  split <;> omega

/-- The reserved bits are the low five: the others are the byte's quotient by 32. -/
theorem and_reserved_eq_iff (a b : Byte) : a &&& 0xE0#8 = b &&& 0xE0#8 ↔ a.toNat / 32 = b.toNat / 32 := by
  have hclear : ∀ c : Byte, (c &&& 0xE0#8).toNat = c.toNat / 32 * 32 := reserved_cleared
  rw [← BitVec.toNat_inj, hclear, hclear, Nat.mul_left_inj (by decide)]

/-- The scaled code determines every bit but the reserved ones. -/
theorem linearUnits_inj (a0 a1 a2 b0 b1 b2 : Byte) :
    linearUnits a0 a1 a2 = linearUnits b0 b1 b2 ↔ a0 = b0 ∧ a1 = b1 ∧ a2 &&& 0xE0#8 = b2 &&& 0xE0#8 := by
  have ha0 := a0.isLt
  have ha1 := a1.isLt
  have ha2 := a2.isLt
  have hb0 := b0.isLt
  have hb1 := b1.isLt
  have hb2 := b2.isLt
  rw [and_reserved_eq_iff, ← BitVec.toNat_inj, ← BitVec.toNat_inj, linearUnits_eq, linearUnits_eq]
  constructor
  · intro h
    split at h <;> split at h <;> omega
  · rintro ⟨h0, h1, h2⟩
    rw [h0, h1]
    have h2' : (a2.toNat / 32 : Int) = b2.toNat / 32 := by exact_mod_cast h2
    rw [h2']

theorem sext_raw16_inj {a0 a1 b0 b1 : Byte} (h : sext 16 (raw16 a0 a1) = sext 16 (raw16 b0 b1)) : a0 = b0 ∧ a1 = b1 := by
  have ha0 := a0.isLt
  have ha1 := a1.isLt
  have hb0 := b0.isLt
  have hb1 := b1.isLt
  rw [sext_raw16, sext_raw16] at h
  rw [← BitVec.toNat_inj, ← BitVec.toNat_inj]
  split at h <;> split at h <;> omega

/-- The driver's composition shifts the first byte by the second as well, which is at least a factor of two unless that is 0. -/
theorem raw16_eq_shifted_iff (b0 b1 : Byte) (h : b1.toNat < 8) :
    raw16 b0 b1 = b0.toNat * 2 ^ (8 + b1.toNat) ↔ b1 = 0#8 := by
  rw [raw16_eq, ← BitVec.toNat_inj, BitVec.toNat_ofNat]
  generalize b1.toNat = k at h ⊢
  interval_cases k <;> omega

/-- Settles O27: both results are increasing in their integer codes, which determine the bytes but for the reserved bits. -/
theorem decodersAreMonotoneAndInjective : Obligations.DecodersAreMonotoneAndInjective := by
  refine ⟨fun a0 a1 a2 b0 b1 b2 => ?_, fun a0 a1 a2 b0 b1 b2 => ?_, fun a0 a1 b0 b1 => toFloat_lt_iff.symm,
    fun a0 a1 b0 b1 h => sext_raw16_inj (toFloat_inj.1 h), raw16_eq_shifted_iff⟩
  · rw [toFloat_lt_iff, sext_raw24, sext_raw24]
    omega
  · rw [toFloat_inj, linearUnits_inj]

theorem toFloat_le_iff {q r : Int} {k : Nat} : toFloat q k ≤ toFloat r k ↔ q ≤ r := by
  rw [← not_lt, ← not_lt, toFloat_lt_iff]

/-- Settles O28: the codes' bounds, scaled. -/
theorem decoderResultsStayInRange : Obligations.DecoderResultsStayInRange := by
  refine ⟨fun s t b0 b1 b2 h => ?_, fun s t b0 b1 h => ?_, by decide, by decide, by decide, by decide⟩
  · rw [exec_dectc] at h
    cases h
    obtain ⟨hlow, hhigh⟩ := linearUnits_bounds b0 b1 b2
    have hmin : (-2048 : Rat) = toFloat (-262144) 7 := by rw [toFloat_eq_div]; norm_num
    exact ⟨linearUnits b0 b1 b2, rfl, rfl, hmin ▸ toFloat_le_iff.2 hlow, toFloat_le_iff (k := 7).2 hhigh⟩
  · rw [exec_deccj] at h
    cases h
    obtain ⟨hlow, hhigh⟩ := sext_raw16_bounds b0 b1
    have hmin : (-128 : Rat) = toFloat (-32768) 8 := by rw [toFloat_eq_div]; norm_num
    exact ⟨sext 16 (raw16 b0 b1), rfl, rfl, hmin ▸ toFloat_le_iff.2 hlow, toFloat_le_iff (k := 8).2 hhigh⟩

/-- A code below 2^19 in magnitude, scaled by 2^7 or 2^8, fills the significand of any legal format once it is shifted up to
its leading bit: the exponent is that bit's place less the scale (R98). -/
theorem represents_toFloat {f : FloatFmt} (hf : f.legal = true) {q : Int} {k : Nat} (hk : 7 ≤ k) (hk' : k ≤ 8)
    (hq : q.natAbs < 2 ^ 19) : Represents f (toFloat q k) := by
  simp only [FloatFmt.legal, Bool.and_eq_true, decide_eq_true_eq] at hf
  obtain ⟨⟨hsig, hmin⟩, hmax⟩ := hf
  by_cases h0 : q = 0
  · left
    simp [h0, toFloat]
  right
  have hne : q.natAbs ≠ 0 := Int.natAbs_ne_zero.2 h0
  obtain ⟨p, hp⟩ : ∃ p, f.sigBits = p + 1 := ⟨f.sigBits - 1, by omega⟩
  have hlog : q.natAbs.log2 < 19 := (Nat.log2_lt hne).2 hq
  have hlo : 2 ^ q.natAbs.log2 ≤ q.natAbs := Nat.log2_self_le hne
  have hhi : q.natAbs < 2 ^ (q.natAbs.log2 + 1) := Nat.lt_log2_self
  generalize q.natAbs.log2 = l at hlog hlo hhi
  obtain ⟨j, rfl⟩ : ∃ j, p = l + j := ⟨p - l, by omega⟩
  refine ⟨q * 2 ^ j, (l : Int) - k, ?_, ?_, by omega, by omega, ?_⟩
  · rw [hp, Int.natAbs_mul, Int.natAbs_pow, Nat.add_sub_cancel, pow_add]
    exact Nat.mul_le_mul_right _ hlo
  · rw [hp, Int.natAbs_mul, Int.natAbs_pow, show l + j + 1 = l + 1 + j by omega, pow_add]
    exact Nat.mul_lt_mul_of_pos_right hhi (by positivity)
  · have hexp : (l : Int) - k - ((f.sigBits : Int) - 1) = -(k + j : Nat) := by omega
    rw [toFloat_eq_div, hexp, zpow_neg, zpow_natCast, pow_add]
    push_cast
    field_simp

/-- Settles O29: both codes are below 2^19 in magnitude. -/
theorem decoderResultsAreExactInEveryFormat : Obligations.DecoderResultsAreExactInEveryFormat := by
  intro f hf
  refine ⟨fun b0 b1 b2 => ?_, fun b0 b1 => ?_⟩
  · obtain ⟨hlow, hhigh⟩ := linearUnits_bounds b0 b1 b2
    exact represents_toFloat hf le_rfl (by decide) (by omega)
  · obtain ⟨hlow, hhigh⟩ := sext_raw16_bounds b0 b1
    exact represents_toFloat hf (by decide) le_rfl (by omega)

end Sys2Proof.Machine

namespace Sys2Proof.Machine

/-! ### What the setters and getters do to the test target's array (20_memory.md R55) -/

/-- The byte of a read on the map is the array's, where one is attached. -/
theorem peek_of_read {s : State} {a : Addr} {v : Byte} (hmap : s.onMap a 1 = true)
    (h : ∀ m, s.chip.fixture = some m → a.toNat < Config.nReg → v = m.read a.toNat) :
    s.chip.fixture.isSome → s.peek a.toNat = some v := by
  intro hsome
  obtain ⟨m, hm⟩ := Option.isSome_iff_exists.1 hsome
  have hlt : a.toNat < Config.nReg := (address_on_map hmap).resolve_left (by simp [hm])
  rw [peek_def, hm, h m hm hlt]
  rfl

/-- A chip whose array has one more byte stored reads as before but for that byte. -/
theorem storesByte_of_stored {s t : State} {a : Addr} {b : Byte} (hmap : s.onMap a 1 = true) (hwf : TargetWf s)
    (h : t.chip.fixture = Chip.stored s.chip.fixture a.toNat b) : StoresByte s t a.toNat b := by
  intro c
  rw [peek_def, peek_def, h]
  rcases address_on_map hmap with hnone | hlt
  · simp [hnone, Chip.stored]
  · exact Chip.stored_read _ _ _ _ hwf hlt

theorem StoresByte.keeps {s t u : State} {a : Nat} {v : Byte} (h : StoresByte s t a v) (h' : KeepsTarget t u) :
    StoresByte s u a v := fun b => (h'.2 b).trans (h b)

/-- A setter stores the byte it makes of the register's, and starts a conversion if that is CR0 with the one-shot bit. -/
theorem setRegister_stores {a : Addr} (f : Byte → Byte) {s : State} (hmap : s.onMap a 1 = true) (hwf : TargetWf s) :
    ∃ t v, setRegister a f s = .next t ∧ t.work.rbuf = [v] ∧ (s.chip.fixture.isSome → s.peek a.toNat = some v) ∧
      StoresByte s t a.toNat (f v) ∧
      t.chip.conv = if a = s.par.addrCr0 ∧ f v &&& s.par.oneShotMask ≠ 0#8 then .converting else s.chip.conv := by
  obtain ⟨t, x, v, y, z, hexec, -, -, hbuf, -, hchip, hread⟩ := setRegister_completes f hmap
  exact ⟨t, v, hexec, hbuf, peek_of_read hmap hread, storesByte_of_stored hmap hwf (by rw [hchip]; rfl),
    hchip ▸ wrote_conv s.par a (f v) s.chip⟩

/-- A getter reads the array's byte and leaves the array and the conversion alone. -/
theorem getRegister_keepsTarget {a : Addr} (r : Byte → Result) {s : State} (hmap : s.onMap a 1 = true) :
    ∃ t v, getRegister a r s = .next t ∧ t.work.rbuf = [v] ∧ (s.chip.fixture.isSome → s.peek a.toNat = some v) ∧
      KeepsTarget s t := by
  obtain ⟨t, x, v, hexec, -, -, hbuf, -, hchip, hread⟩ := getRegister_completes r hmap
  exact ⟨t, v, hexec, hbuf, peek_of_read hmap hread, keepsTarget_of_chip hchip⟩

/-- Settles O38: three setters, of CR1 twice and of CR0, where the conversion clause is about CR0 itself. -/
theorem settersStoreOneByteUnderTheTestTarget : Obligations.SettersStoreOneByteUnderTheTestTarget := by
  intro s hmacros hwf
  obtain ⟨hcr0, hcr1, -⟩ := macro_onMap s hmacros
  refine ⟨fun ty => ?_, fun sel => ?_, fun f => ?_⟩
  · obtain ⟨t, v, hexec, hbuf, hpeek, hstores, hconv⟩ := setRegister_stores (fun v => insertType v ty) hcr1 hwf
    exact ⟨t, v, _, hexec, hbuf, insertType_toNat v ty, hpeek, hstores, hconv⟩
  · obtain ⟨t, v, hexec, hbuf, hpeek, hstores, hconv⟩ := setRegister_stores (fun v => insertSelector v sel) hcr1 hwf
    exact ⟨t, v, _, hexec, hbuf, insertSelector_toNat v sel, hpeek, hstores, hconv⟩
  · obtain ⟨t, v, hexec, hbuf, hpeek, hstores, hconv⟩ := setRegister_stores (fun v => insertFilter v f) hcr0 hwf
    exact ⟨t, v, _, hexec, hbuf, insertFilter_toNat v f, hpeek, hstores, by simpa using hconv⟩

/-- Settles O39: four getters. -/
theorem gettersLeaveTheTestTargetAlone : Obligations.GettersLeaveTheTestTargetAlone := by
  intro s hmacros
  obtain ⟨hcr0, hcr1, -, -, hsr⟩ := macro_onMap s hmacros
  rw [exec_gettc, exec_getavg, exec_getnf, exec_rdfault]
  exact ⟨getRegister_keepsTarget _ hcr1, getRegister_keepsTarget _ hcr1, getRegister_keepsTarget _ hcr0,
    getRegister_keepsTarget _ hsr⟩

/-! ### BEGIN (42_controller.md R102) -/

/-- The events of BEGIN's line levels. -/
def idleEvents (m : Mode) : List Event := match m with | .hw => [.cs true] | .sw => [.cs true, .sck true]

theorem idleLines_trace (s : State) : (idleLines s).trace = s.trace ++ idleEvents s.cfg.mode := by
  rw [idleLines_eq]
  rfl

theorem idleLines_keepsHandle (s : State) : KeepsHandle s (idleLines s) := by
  rw [idleLines_eq]
  exact ⟨rfl, rfl, rfl⟩

/-- Complete frames after BEGIN's line levels: in the byte-level view the chip-select level comes first. -/
theorem Ran.after_idleLines {s t : State} {l : List ByteEvent} {ws : List Nat} (h : Ran (idleLines s) t l ws) :
    Ran s t (.cs true :: l) ws := by
  obtain ⟨evs, htrace, hlink, hbracket, hdelays⟩ := h.events
  obtain ⟨hcs, hphase, hrx, hhw, hsw⟩ := h.idle
  have hcfg := (idleLines_keepsHandle s).1
  rw [hcfg] at hbracket hhw hsw
  refine ⟨?_, ⟨hcs, hphase, hrx, fun hm => ?_, fun hm => ?_⟩, (idleLines_keepsHandle s).trans h.handle⟩
  · cases hm : s.cfg.mode with
    | hw =>
      rw [hm] at hbracket
      exact ⟨.cs true :: evs, by simp [htrace, idleLines_trace, hm, idleEvents], by simp [hlink], hbracket,
        by simpa [delays] using hdelays⟩
    | sw =>
      rw [hm] at hbracket
      exact ⟨.cs true :: .sck true :: evs, by simp [htrace, idleLines_trace, hm, idleEvents], by simp [hlink], hbracket,
        by simpa [delays] using hdelays⟩
  · simpa only [idleLines_eq, hm, clockAfter] using hhw hm
  · simpa only [idleLines_eq] using hsw hm

theorem exec_begin_next {s : State} (hmap : s.onMap s.par.addrCr1 1 = true) :
    exec .beginDev s = .next (giveResult .nothing
      (rmw s.par.addrCr1 (fun v => insertType v s.cfg.tcType) (idleLines s))) := by
  obtain ⟨-, hpar, -⟩ := idleLines_keepsHandle s
  rw [exec, execBegin, rmw_onTarget _ _ _ hmap, setType, hpar]

/-- Settles O30: SETTC of CFG.TCTYPE after the two line levels, which leave the array and the conversion alone. -/
theorem beginIdlesTheLinesAndWritesTheType : Obligations.BeginIdlesTheLinesAndWritesTheType := by
  intro s hmacros hwf
  obtain ⟨-, hcr1, -⟩ := macro_onMap s hmacros
  obtain ⟨-, hpar, -⟩ := idleLines_keepsHandle s
  have hidle : (idleLines s).chip = { s.chip with rx := .idle } := by rw [idleLines_eq]
  have hdec0 : KeepsDecoder s (idleLines s) := by rw [idleLines_eq]; exact ⟨rfl, rfl⟩
  obtain ⟨x, v, y, z, hran, hbuf, hdec, hchip, -, hread⟩ :=
    rmw_ran s.par.addrCr1 (fun v => insertType v s.cfg.tcType) (idleLines s)
  rw [hidle] at hread hchip
  rw [hpar] at hchip
  refine ⟨_, x, v, y, insertType v s.cfg.tcType, z, exec_begin_next hcr1, insertType_toNat v s.cfg.tcType,
    hran.after_idleLines.sends, fun hm => ?_, rfl, hbuf, hdec0.trans hdec, peek_of_read hcr1 hread,
    storesByte_of_stored hcr1 hwf (by rw [giveResult_chip, hchip]; rfl), ?_⟩
  · obtain ⟨evs, htrace, -⟩ := hran.events
    exact ⟨evs, by rw [giveResult_trace, htrace, idleLines_trace, hm, List.append_assoc, idleEvents]⟩
  · rw [giveResult_chip, hchip]
    exact wrote_conv s.par _ _ { s.chip with rx := .idle }

/-! ### TRIG, RDTC and RDCJ (42_controller.md R110, R114, R116) -/

/-- What TRIG makes of the chip: `c0` and `c1` are read from CR0 and CR1, the trigger value is stored in CR0, and the
conversion's wait has elapsed. -/
structure Triggered (s t : State) (c0 c1 : Byte) : Prop where
  read : s.chip.fixture.isSome → s.peek s.par.addrCr0.toNat = some c0 ∧ s.peek s.par.addrCr1.toNat = some c1
  stored : StoresByte s t s.par.addrCr0.toNat (triggerValue s.par c0)
  waited : t.chip.conv = .idle

theorem Triggered.keeps {s t u : State} {c0 c1 : Byte} (h : Triggered s t c0 c1) (h' : KeepsTarget t u) :
    Triggered s u c0 c1 := ⟨h.read, h.stored.keeps h', h'.1.trans h.waited⟩

theorem trigger_triggered {s : State} (hmacros : MacrosOnMap s) (hwf : TargetWf s) :
    ∃ x0 c0 x1 c1 x2 y,
      Ran s (trigger s) (linkTrigger s.par x0 c0 x1 c1 x2 (triggerValue s.par c0) y (waitMs c0 c1)) [waitMs c0 c1] ∧
      (trigger s).work.rbuf = [c1] ∧ KeepsDecoder s (trigger s) ∧ Triggered s (trigger s) c0 c1 := by
  obtain ⟨hcr0, hcr1, -⟩ := macro_onMap s hmacros
  obtain ⟨x0, c0, x1, c1, x2, y, hran, hbuf, hdec, hchip, -, hread0, hread1⟩ := trigger_ran s
  exact ⟨x0, c0, x1, c1, x2, y, hran, hbuf, hdec,
    fun hsome => ⟨peek_of_read hcr0 hread0 hsome, peek_of_read hcr1 hread1 hsome⟩,
    storesByte_of_stored hcr0 hwf (by rw [hchip]; rfl), by rw [hchip]⟩

theorem trig_onTarget {s : State} (hmacros : MacrosOnMap s) (fs : List (Addr × Nat))
    (hfs : ∀ f ∈ fs, s.onMap f.1 f.2 = true) (t : State) : onTarget (trigFrames s.par ++ fs) s t = .next t := by
  obtain ⟨hcr0, hcr1, -⟩ := macro_onMap s hmacros
  refine onTarget_next _ _ _ fun f hf => ?_
  simp only [trigFrames, List.mem_append, List.mem_cons, List.not_mem_nil, or_false] at hf
  rcases hf with (rfl | rfl | rfl) | hf
  · exact hcr0
  · exact hcr1
  · exact hcr0
  · exact hfs f hf

/-- Settles O41: TRIG hands nothing back. -/
theorem trigStartsAConversionAndWaits : Obligations.TrigStartsAConversionAndWaits := by
  intro s hmacros hwf
  obtain ⟨x0, c0, x1, c1, x2, y, hran, hbuf, hdec, htrig⟩ := trigger_triggered hmacros hwf
  have hexec : exec .trig s = .next (giveResult .nothing (trigger s)) := trig_onTarget hmacros [] (by simp) _
  exact ⟨_, x0, c0, x1, c1, x2, triggerValue s.par c0, y, hexec, rfl, (hran.giveResult _).sends, rfl, hbuf, htrig.read,
    htrig.stored, htrig.waited, hdec⟩

/-- The map check depends on whether a test target is attached, not on its contents. -/
theorem onMap_of_attached {s t : State} {a : Addr} {n : Nat} (h : t.chip.fixture.isSome = s.chip.fixture.isSome)
    (hmap : s.onMap a n = true) : t.onMap a n = true := by
  rw [State.onMap, ← Option.not_isSome, h, Option.not_isSome]
  exact hmap

/-- The bytes of a read frame are those of the array it leaves. -/
theorem ReadsFrame.peek {s t : State} {a : Addr} {x : Byte} {ds : List Byte} (h : ReadsFrame s t a x ds)
    (hsome : s.chip.fixture.isSome) {k : Nat} (hk : k < ds.length) : t.peek (a.toNat + k) = ds[k]? := by
  obtain ⟨m, hm⟩ := Option.isSome_iff_exists.1 hsome
  obtain ⟨-, hkeeps⟩ := h.target
  rw [hkeeps, peek_def, hm, h.array m hm k hk]
  rfl

/-- The frames of RDTC and RDCJ: TRIG, then one read frame of the result's registers. -/
theorem trigger_then_read {s : State} {a : Addr} {n : Nat} (hmacros : MacrosOnMap s) (hwf : TargetWf s)
    (hmap : s.onMap a n = true) :
    ∃ x0 c0 x1 c1 x2 y x3 ds, ds.length = n ∧
      Ran s (readFrame a n (trigger s))
        (linkTrigger s.par x0 c0 x1 c1 x2 (triggerValue s.par c0) y (waitMs c0 c1) ++ linkFrame (readExchanges a x3 ds))
        [waitMs c0 c1] ∧
      (readFrame a n (trigger s)).work.rbuf = ds ∧ Triggered s (readFrame a n (trigger s)) c0 c1 ∧
      (s.chip.fixture.isSome → ∀ k, k < n → (readFrame a n (trigger s)).peek (a.toNat + k) = ds[k]?) := by
  obtain ⟨x0, c0, x1, c1, x2, y, hran, -, -, htrig⟩ := trigger_triggered hmacros hwf
  have hattached := (framesRun_trigger .trig (.inl rfl) s).attached
  obtain ⟨x3, ds, hran', hlen, hbuf, -⟩ := readFrame_ran a n (trigger s)
  obtain ⟨x3', ds', -, hreads, -⟩ := readFrame_reads (onMap_of_attached hattached hmap)
  have hds : ds' = ds := hreads.buffer.symm.trans hbuf
  subst hds
  subst hlen
  exact ⟨x0, c0, x1, c1, x2, y, x3, ds', rfl, hran.trans hran', hbuf, htrig.keeps hreads.target,
    fun hsome k hk => hreads.peek (hattached ▸ hsome) hk⟩

theorem Ran.decodeLinear {s t : State} {l : List ByteEvent} {ws : List Nat} (h : Ran s t l ws) (b0 b1 b2 : Byte) :
    Ran s (decodeLinear b0 b1 b2 t) l ws := ⟨h.events, h.idle, h.handle⟩

theorem Ran.decodeColdJunction {s t : State} {l : List ByteEvent} {ws : List Nat} (h : Ran s t l ws) (b0 b1 : Byte) :
    Ran s (decodeColdJunction b0 b1 t) l ws := ⟨h.events, h.idle, h.handle⟩

theorem sext_cast (n v : Nat) : (sext n v : Rat) = if v < 2 ^ (n - 1) then (v : Rat) else (v : Rat) - 2 ^ n := by
  rw [sext]
  split <;> push_cast <;> rfl

theorem toFloat_linearUnits_raw24 (b0 b1 b2 : Byte) :
    toFloat (linearUnits b0 b1 b2) 7 =
      (if raw24 b0 b1 b2 < 2 ^ 23 then (raw24 b0 b1 b2 : Rat) else (raw24 b0 b1 b2 : Rat) - 2 ^ 24) / 4096 := by
  rw [toFloat_linearUnits, sext_cast]

theorem toFloat_raw16 (b0 b1 : Byte) :
    toFloat (sext 16 (raw16 b0 b1)) 8 =
      (if raw16 b0 b1 < 2 ^ 15 then (raw16 b0 b1 : Rat) else (raw16 b0 b1 : Rat) - 2 ^ 16) / 256 := by
  rw [toFloat_eq_div, sext_cast]
  norm_num

/-- RDTC completes where MAX_COUNT admits its three bytes, with DECTC of what its last frame captured. -/
theorem exec_rdtc_next {s : State} {b0 b1 b2 : Byte} (hmax : 3 ≤ s.par.maxCount) (hmacros : MacrosOnMap s)
    (hbuf : (readFrame s.par.addrLtc 3 (trigger s)).work.rbuf = [b0, b1, b2]) :
    exec .rdtc s = .next (decodeLinear b0 b1 b2 (readFrame s.par.addrLtc 3 (trigger s))) := by
  obtain ⟨-, -, hltc, -⟩ := macro_onMap s hmacros
  rw [exec, execRdtc, countChecked_next _ _ _ hmax, trig_onTarget hmacros _ (by simpa using hltc)]
  simp only [State.rbufByte, hbuf, List.getD_cons_zero, List.getD_cons_succ]

/-- RDCJ completes where MAX_COUNT admits its two bytes, with DECCJ of what its last frame captured. -/
theorem exec_rdcj_next {s : State} {b0 b1 : Byte} (hmax : 2 ≤ s.par.maxCount) (hmacros : MacrosOnMap s)
    (hbuf : (readFrame s.par.addrCjt 2 (trigger s)).work.rbuf = [b0, b1]) :
    exec .rdcj s = .next (decodeColdJunction b0 b1 (readFrame s.par.addrCjt 2 (trigger s))) := by
  obtain ⟨-, -, -, hcjt, -⟩ := macro_onMap s hmacros
  rw [exec, execRdcj, countChecked_next _ _ _ hmax, trig_onTarget hmacros _ (by simpa using hcjt)]
  simp only [State.rbufByte, hbuf, List.getD_cons_zero, List.getD_cons_succ]

/-- Settles O42: the three bytes in RBUF are decoded as DECTC does. -/
theorem rdtcTriggersReadsAndDecodes : Obligations.RdtcTriggersReadsAndDecodes := by
  intro s hmax hmacros hwf
  obtain ⟨-, -, hltc, -⟩ := macro_onMap s hmacros
  obtain ⟨x0, c0, x1, c1, x2, y, x3, ds, hlen, hran, hbuf, htrig, hpeek⟩ := trigger_then_read hmacros hwf hltc
  obtain ⟨b0, b1, b2, rfl⟩ := List.length_eq_three.1 hlen
  refine ⟨_, x0, c0, x1, c1, x2, triggerValue s.par c0, y, x3, b0, b1, b2, raw24 b0 b1 b2, toFloat (linearUnits b0 b1 b2) 7,
    exec_rdtc_next hmax hmacros hbuf, rfl, (hran.decodeLinear b0 b1 b2).sends, raw24_eq b0 b1 b2,
    toFloat_linearUnits_raw24 b0 b1 b2, rfl, rfl, rfl, hbuf, fun hsome => ?_, htrig.stored, htrig.waited⟩
  obtain ⟨hc0, hc1⟩ := htrig.read hsome
  exact ⟨hc0, hc1, hpeek hsome 0 (by decide), hpeek hsome 1 (by decide), hpeek hsome 2 (by decide)⟩

/-- Settles O43: the two bytes in RBUF are decoded as DECCJ does. -/
theorem rdcjTriggersReadsAndDecodes : Obligations.RdcjTriggersReadsAndDecodes := by
  intro s hmax hmacros hwf
  obtain ⟨-, -, -, hcjt, -⟩ := macro_onMap s hmacros
  obtain ⟨x0, c0, x1, c1, x2, y, x3, ds, hlen, hran, hbuf, htrig, hpeek⟩ := trigger_then_read hmacros hwf hcjt
  obtain ⟨b0, b1, rfl⟩ := List.length_eq_two.1 hlen
  refine ⟨_, x0, c0, x1, c1, x2, triggerValue s.par c0, y, x3, b0, b1, raw16 b0 b1, toFloat (sext 16 (raw16 b0 b1)) 8,
    exec_rdcj_next hmax hmacros hbuf, rfl, (hran.decodeColdJunction b0 b1).sends, raw16_eq b0 b1,
    toFloat_raw16 b0 b1, rfl, rfl, rfl, hbuf, fun hsome => ?_, htrig.stored, htrig.waited⟩
  obtain ⟨hc0, hc1⟩ := htrig.read hsome
  exact ⟨hc0, hc1, hpeek hsome 0 (by decide), hpeek hsome 1 (by decide)⟩

/-! ### The fields of CR0 and CR1 do not disturb each other (30_encoding.md R65 to R67) -/

theorem extractSelector_insertSelector (v : Byte) (sel : BitVec 3) : extractSelector (insertSelector v sel) = sel.toNat := by
  have hsel := sel.isLt
  rw [extractSelector_eq, insertSelector_toNat]
  omega

theorem extractType_insertType (v : Byte) (ty : BitVec 4) : extractType (insertType v ty) = ty := by
  have hty := ty.isLt
  apply BitVec.eq_of_toNat_eq
  rw [extractType_toNat, insertType_toNat]
  omega

theorem extractFilter_insertFilter (v : Byte) (f : Bit) : extractFilter (insertFilter v f) = f := by
  rw [extractFilter_eq, insertFilter_toNat]
  cases f
  · rw [decide_eq_false_iff_not, if_neg Bool.false_ne_true]
    omega
  · rw [decide_eq_true_iff, if_pos rfl]
    omega

theorem insertType_high (v : Byte) (ty : BitVec 4) : insertType v ty &&& 0xF0#8 = v &&& 0xF0#8 := by
  revert v ty; decide

theorem insertFilter_high (v : Byte) (f : Bit) : insertFilter v f &&& 0xFE#8 = v &&& 0xFE#8 := by
  revert v f; decide

theorem insertSelector_insertType_toNat (v : Byte) (sel : BitVec 3) (ty : BitVec 4) :
    (insertSelector (insertType v ty) sel).toNat = v.toNat / 128 * 128 + sel.toNat * 16 + ty.toNat := by
  have hty := ty.isLt
  rw [insertSelector_toNat, insertType_toNat]
  omega

theorem insertType_insertSelector (v : Byte) (sel : BitVec 3) (ty : BitVec 4) :
    insertType (insertSelector v sel) ty = insertSelector (insertType v ty) sel := by
  have hsel := sel.isLt
  apply BitVec.eq_of_toNat_eq
  rw [insertSelector_insertType_toNat, insertType_toNat, insertSelector_toNat]
  omega

/-- A setter under the test target: the array it leaves. -/
theorem setRegister_under_target {s : State} {m : Memory} {a : Addr} (f : Byte → Byte) (hm : s.chip.fixture = some m)
    (hwf : m.wf = true) (ha : a.toNat < Config.nReg) :
    ∃ t m', setRegister a f s = .next t ∧ t.chip.fixture = some m' ∧ m'.wf = true ∧
      m'.read a.toNat = f (m.read a.toNat) ∧ t.par = s.par := by
  have hmap : s.onMap a 1 = true := (onMap_iff s a 1).2 (.inr ha)
  obtain ⟨t, x, v, y, z, hexec, ⟨-, -, -, hpar, -⟩, -, -, -, hchip, hread⟩ := setRegister_completes f hmap
  refine ⟨t, m.write a.toNat (f v), hexec, ?_, Memory.wf_write m _ _ hwf ha, ?_, hpar⟩
  · rw [hchip, Chip.wrote, hm, Chip.stored, if_pos ha]
    rfl
  · rw [Memory.read_write m _ _ _ hwf, if_pos rfl, hread m hm ha]

/-- A getter under the test target: its answer, and the register it leaves. -/
theorem getRegister_under_target {s : State} {m : Memory} {a : Addr} (r : Byte → Result) (hm : s.chip.fixture = some m)
    (ha : a.toNat < Config.nReg) :
    ∃ u, getRegister a r s = .next u ∧ u.result = r (m.read a.toNat) ∧ u.peek a.toNat = some (m.read a.toNat) := by
  have hmap : s.onMap a 1 = true := (onMap_iff s a 1).2 (.inr ha)
  obtain ⟨u, x, v, hexec, -, hres, -, -, hchip, hread⟩ := getRegister_completes r hmap
  refine ⟨u, hexec, by rw [hres, hread m hm ha], ?_⟩
  rw [peek_def, hchip, hm]
  rfl

/-- Settles O44: a getter after a setter answers from the byte the setter made; two setters of CR1 compose. -/
theorem settersAndGettersRoundTrip : Obligations.SettersAndGettersRoundTrip := by
  rintro s m _ _ hm hwf hlegal rfl rfl
  obtain ⟨hcr0, hcr1, -⟩ := legal_bounds s.par hlegal
  refine ⟨fun sel => ?_, fun ty => ?_, fun f => ?_, fun sel ty => ?_⟩
  · obtain ⟨t, m', ht, hm', -, hread, hpar⟩ := setRegister_under_target (fun v => insertSelector v sel) hm hwf hcr1
    obtain ⟨u, hu, hres, -⟩ := getRegister_under_target (fun v => .count (countOf (extractSelector v))) hm' hcr1
    rw [← hpar, ← exec_getavg] at hu
    refine ⟨t, u, ht, hu, ?_⟩
    rw [hres, hread, extractSelector_insertSelector, countOf_eq]
  · obtain ⟨t, m', ht, hm', -, hread, hpar⟩ := setRegister_under_target (fun v => insertType v ty) hm hwf hcr1
    obtain ⟨u, hu, hres, hpeek⟩ := getRegister_under_target (fun v => .tcType (extractType v)) hm' hcr1
    rw [← hpar, ← exec_gettc] at hu
    refine ⟨t, u, ht, hu, ?_, _, hpeek, ?_⟩
    · rw [hres, hread, extractType_insertType]
    · rw [hread, insertType_high]
  · obtain ⟨t, m', ht, hm', -, hread, hpar⟩ := setRegister_under_target (fun v => insertFilter v f) hm hwf hcr0
    obtain ⟨u, hu, hres, hpeek⟩ := getRegister_under_target (fun v => .bit (extractFilter v)) hm' hcr0
    rw [← hpar, ← exec_getnf] at hu
    refine ⟨t, u, ht, hu, ?_, _, hpeek, ?_⟩
    · rw [hres, hread, extractFilter_insertFilter]
    · rw [hread, insertFilter_high]
  · obtain ⟨t, m1, ht, hm1, hwf1, hread1, hpar1⟩ := setRegister_under_target (fun v => insertType v ty) hm hwf hcr1
    obtain ⟨u, m2, hu, hm2, -, hread2, -⟩ := setRegister_under_target (fun v => insertSelector v sel) hm1 hwf1 hcr1
    obtain ⟨t', m3, ht', hm3, hwf3, hread3, hpar3⟩ := setRegister_under_target (fun v => insertSelector v sel) hm hwf hcr1
    obtain ⟨u', m4, hu', hm4, -, hread4, -⟩ := setRegister_under_target (fun v => insertType v ty) hm3 hwf3 hcr1
    rw [← hpar1, ← exec_setavg] at hu
    rw [← hpar3, ← exec_settc] at hu'
    have hpeek : u.peek s.par.addrCr1.toNat = some (insertSelector (insertType (m.read s.par.addrCr1.toNat) ty) sel) := by
      rw [peek_def, hm2, Option.map_some, hread2, hread1]
    have hpeek' : u'.peek s.par.addrCr1.toNat = some (insertType (insertSelector (m.read s.par.addrCr1.toNat) sel) ty) := by
      rw [peek_def, hm4, Option.map_some, hread4, hread3]
    refine ⟨t, u, t', u', ht, hu, ht', hu', ?_, _, hpeek, insertSelector_insertType_toNat _ sel ty⟩
    rw [hpeek, hpeek', insertType_insertSelector]

end Sys2Proof.Machine

namespace Sys2Proof.Machine

/-! ### Frames whose received bytes are given (00_scope.md R8) -/

/-- The environment that is going to give the bytes `xs`, as bus bytes or as least-significant-first samples by the mode, and then
`bits` and `bytes`. -/
def supplied (m : Mode) (xs : List Byte) (bits : List Bit) (bytes : List Byte) (drawn : Nat) : Env :=
  match m with
  | .hw => ⟨bits, xs ++ bytes, drawn⟩
  | .sw => ⟨xs.flatMap (serialise Config.swBitOrder) ++ bits, bytes, drawn⟩

@[simp] theorem supplied_nil (m : Mode) (bits : List Bit) (bytes : List Byte) (drawn : Nat) :
    supplied m [] bits bytes drawn = ⟨bits, bytes, drawn⟩ := by cases m <;> rfl

/-- Samples that the environment has listed are taken from its list. -/
theorem sampleAll_listed (ts : List Nat) (ms rest : List Bit) (bytes : List Byte) (drawn : Nat) (h : ms.length = ts.length) :
    sampleAll none ts ⟨ms ++ rest, bytes, drawn⟩ = (ms, ⟨rest, bytes, drawn⟩) := by
  induction ts generalizing ms with
  | nil =>
    rw [List.length_eq_zero_iff.1 h]
    rfl
  | cons t ts ih =>
    cases ms with
    | nil => cases h
    | cons m ms =>
      rw [List.cons_append, sampleAll, show sampleBit none t ⟨m :: (ms ++ rest), bytes, drawn⟩ =
        (m, ⟨ms ++ rest, bytes, drawn⟩) from rfl, ih ms (Nat.succ.inj h)]

section
variable (m : Mode) (bits : List Bit) (bytes : List Byte) (drawn : Nat)

theorem received_supplied (x : Byte) (xs : List Byte) :
    received m none (supplied m (x :: xs) bits bytes drawn) = (x, supplied m xs bits bytes drawn) := by
  cases m with
  | hw => rfl
  | sw =>
    simp only [received, supplied, List.flatMap_cons, List.append_assoc]
    rw [sampleAll_listed _ _ _ _ _ rfl, deserialise_serialise]

theorem payloadReceived_supplied (a k : Nat) (xs : List Byte) :
    payloadReceived m none a xs.length k (supplied m xs bits bytes drawn) = (xs, ⟨bits, bytes, drawn⟩) := by
  induction xs generalizing k with
  | nil => simp [payloadReceived]
  | cons x xs ih =>
    rw [List.length_cons, payloadReceived, payloadReply, received_supplied]
    simp only [ih]

theorem dropped_supplied (d xs : List Byte) (h : xs.length = d.length) :
    dropped m d (supplied m xs bits bytes drawn) = (xs, ⟨bits, bytes, drawn⟩) := by
  induction d generalizing xs with
  | nil =>
    rw [List.length_eq_zero_iff.1 h]
    simp [dropped]
  | cons b d ih =>
    cases xs with
    | nil => cases h
    | cons x xs =>
      rw [dropped, received_supplied]
      simp only [ih xs (Nat.succ.inj h)]

end

/-- From `s` to `t` one frame of the exchanges `xs` has run, leaving the chip `c` and the environment `e`. -/
structure Framed (s t : State) (xs : List (Byte × Byte)) (c : Chip) (e : Env) : Prop where
  trace : t.trace = s.trace ++ frameEvents s.cfg xs
  chip : t.chip = c
  env : t.env = e
  cfg : t.cfg = s.cfg

theorem Framed.giveResult {s t : State} {xs : List (Byte × Byte)} {c : Chip} {e : Env} (h : Framed s t xs c e) (r : Result) :
    Framed s (giveResult r t) xs c e := ⟨h.trace, h.chip, h.env, h.cfg⟩

/-- The chip after a write frame of `d` at `a`. -/
def Chip.written (p : Params) (a : Addr) (d : List Byte) (c : Chip) : Chip :=
  { Chip.afterWrite p a.toNat { c with rx := .payload true a.toNat 0 } d 0 with rx := .idle }

section
variable {s : State} {x : Byte} {xs : List Byte} {bits : List Bit} {bytes : List Byte} {drawn : Nat}
variable (hnone : s.chip.fixture = none) (henv : s.env = supplied s.cfg.mode (x :: xs) bits bytes drawn)
include henv

theorem writeFrame_supplied (a : Addr) {d : List Byte} (hlen : xs.length = d.length) :
    Framed s (writeFrame a d s) (writeExchanges a x d xs) (Chip.written s.par a d s.chip) ⟨bits, bytes, drawn⟩ := by
  obtain ⟨w, heq, -⟩ := writeFrame_eq a d s
  simp only [addressReceived, henv, received_supplied, dropped_supplied _ _ _ _ _ _ hlen] at heq
  rw [heq]
  exact ⟨rfl, rfl, rfl, rfl⟩

include hnone

theorem readFrame_supplied (a : Addr) :
    Framed s (readFrame a xs.length s) (readExchanges a x xs) { s.chip with rx := .idle } ⟨bits, bytes, drawn⟩ ∧
      (readFrame a xs.length s).work.rbuf = xs := by
  obtain ⟨w, heq, hbuf, -⟩ := readFrame_eq a xs.length s
  simp only [addressReceived, henv, hnone, received_supplied, payloadReceived_supplied] at heq hbuf
  rw [heq]
  exact ⟨⟨rfl, by simp only [hnone], rfl, rfl⟩, hbuf⟩

/-! The four commands, without a test target. -/

theorem rdregs_supplied (a : Addr) (hn : xs.length ≤ s.par.maxCount) :
    ∃ t, exec (.rdregs a xs.length) s = .next t ∧ t.result = .bytes xs ∧
      Framed s t (readExchanges a x xs) { s.chip with rx := .idle } ⟨bits, bytes, drawn⟩ := by
  obtain ⟨hframed, hbuf⟩ := readFrame_supplied hnone henv a
  exact ⟨_, exec_rdregs_next hn (onMap_of_no_target a _ hnone), congrArg Result.bytes hbuf, hframed.giveResult _⟩

theorem rdreg_supplied (a : Addr) {v : Byte} (hv : xs = [v]) :
    ∃ t, exec (.rdreg a) s = .next t ∧ t.result = .byte v ∧
      Framed s t (readExchanges a x [v]) { s.chip with rx := .idle } ⟨bits, bytes, drawn⟩ := by
  subst hv
  obtain ⟨hframed, hbuf⟩ := readFrame_supplied hnone henv a
  refine ⟨_, exec_rdreg_next (onMap_of_no_target a 1 hnone), congrArg Result.byte ?_, hframed.giveResult _⟩
  rw [State.rbufByte, show (readFrame a 1 s).work.rbuf = [v] from hbuf]
  rfl

theorem wrregs_supplied (a : Addr) {d : List Byte} (hlen : xs.length = d.length) (hd : d.length ≤ s.par.maxCount) :
    ∃ t, exec (.wrregs a d) s = .next t ∧ t.result = .nothing ∧
      Framed s t (writeExchanges a x d xs) (Chip.written s.par a d s.chip) ⟨bits, bytes, drawn⟩ :=
  ⟨_, exec_wrregs_next hd (onMap_of_no_target a _ hnone), rfl, (writeFrame_supplied henv a hlen).giveResult _⟩

theorem wrreg_supplied (a : Addr) (d : Byte) (hlen : xs.length = 1) :
    ∃ t, exec (.wrreg a d) s = .next t ∧ t.result = .nothing ∧
      Framed s t (writeExchanges a x [d] xs) (Chip.written s.par a [d] s.chip) ⟨bits, bytes, drawn⟩ :=
  ⟨_, exec_wrreg_next d (onMap_of_no_target a 1 hnone), rfl, (writeFrame_supplied henv a (d := [d]) hlen).giveResult _⟩

end

/-! ### The two modes at byte level (40_transport.md R89) -/

theorem byteTrace_frame_sw {c : Cfg} (hm : c.mode = .sw) (xs : List (Byte × Byte)) :
    byteTrace (frameEvents c xs) = linkFrame xs := by
  rw [frameEvents_sw hm, List.append_assoc]
  exact congrArg (ByteEvent.cs false :: ·) (byteTrace_exchanges .sw xs [.cs true])

/-- Two runs of one command, one in each mode, that exchange the same bytes, differ at byte level in the bus's bracket only. -/
theorem modes_agree_of_framed {i : Instr} {s h w th tw : State} {xs : List (Byte × Byte)} {r : Result} {c : Chip} {e : Env}
    (hsw : w.cfg.mode = .sw) (hh : h.trace = s.trace) (hw : w.trace = s.trace)
    (hrun : exec i h = .next th ∧ th.result = r ∧ Framed h th xs c e)
    (wrun : exec i w = .next tw ∧ tw.result = r ∧ Framed w tw xs c e) {bs : List Byte}
    (hbytes : ∀ a n, i = .rdregs a n → r = .bytes bs) :
    ∃ (th tw : State) (eh ew : List Event), exec i h = .next th ∧ exec i w = .next tw ∧
      th.trace = s.trace ++ eh ∧ tw.trace = s.trace ++ ew ∧
      (byteTrace eh).filter (fun e => !e.isBus) = byteTrace ew ∧ th.result = tw.result ∧ th.chip = tw.chip ∧
      (∀ a n, i = .rdregs a n → th.result = .bytes bs) ∧ th.env = e ∧ tw.env = e := by
  obtain ⟨hexec, hres, hframed⟩ := hrun
  obtain ⟨wexec, wres, wframed⟩ := wrun
  refine ⟨th, tw, _, _, hexec, wexec, hh ▸ hframed.trace, hw ▸ wframed.trace, ?_, hres.trans wres.symm,
    hframed.chip.trans wframed.chip.symm, fun a n hi => hres.trans (hbytes a n hi), hframed.env, wframed.env⟩
  rw [byteTrace_frame_sw hsw]
  exact linkTrace_frame_last h.cfg xs

/-- Settles O24: either mode's environment supplies the same bytes, so each command's frame exchanges the same bytes. -/
theorem modesAgreeAtByteLevel : Obligations.ModesAgreeAtByteLevel := by
  intro s h w i xs ss ms ms' bits bytes hnone hh hw hcommand
  have hhw : h.cfg.mode = .hw := by rw [hh]; rfl
  have hsw : w.cfg.mode = .sw := by rw [hw]; rfl
  have henv : h.env = supplied h.cfg.mode xs bits bytes s.env.drawn := by rw [hhw, hh]; rfl
  have wenv : w.env = supplied w.cfg.mode xs bits bytes s.env.drawn := by rw [hsw, hw]; rfl
  have htrace : h.trace = s.trace := by rw [hh]
  have wtrace : w.trace = s.trace := by rw [hw]
  have hchip : h.chip = s.chip := by rw [hh]
  have wchip : w.chip = s.chip := by rw [hw]
  have hpar : h.par = s.par := by rw [hh]
  have wpar : w.par = s.par := by rw [hw]
  clear hh hw
  have hnone' : h.chip.fixture = none := hchip ▸ hnone
  have wnone' : w.chip.fixture = none := wchip ▸ hnone
  obtain ⟨x, rest, rfl⟩ : ∃ x rest, xs = x :: rest := by
    rcases xs with _ | ⟨x, rest⟩
    · simp at hcommand
    · exact ⟨x, rest, rfl⟩
  simp only [List.length_cons, Nat.add_right_cancel_iff, Nat.reduceEqDiff] at hcommand
  rcases hcommand with ⟨a, rfl, hlen⟩ | ⟨a, n, rfl, rfl, hn⟩ | ⟨a, d, rfl, hlen⟩ | ⟨a, d, rfl, hlen, hd⟩
  · obtain ⟨v, rfl⟩ := List.length_eq_one_iff.1 hlen
    obtain ⟨th, hrun⟩ := rdreg_supplied hnone' henv a rfl
    obtain ⟨tw, wrun⟩ := rdreg_supplied wnone' wenv a rfl
    rw [hchip] at hrun
    rw [wchip] at wrun
    exact modes_agree_of_framed hsw htrace wtrace hrun wrun (by simp)
  · obtain ⟨th, hrun⟩ := rdregs_supplied hnone' henv a (hpar ▸ hn)
    obtain ⟨tw, wrun⟩ := rdregs_supplied wnone' wenv a (wpar ▸ hn)
    rw [hchip] at hrun
    rw [wchip] at wrun
    exact modes_agree_of_framed hsw htrace wtrace hrun wrun (by simp)
  · obtain ⟨th, hrun⟩ := wrreg_supplied hnone' henv a d hlen
    obtain ⟨tw, wrun⟩ := wrreg_supplied wnone' wenv a d hlen
    rw [hchip, hpar] at hrun
    rw [wchip, wpar] at wrun
    exact modes_agree_of_framed hsw htrace wtrace hrun wrun (by simp)
  · obtain ⟨th, hrun⟩ := wrregs_supplied hnone' henv a hlen (hpar ▸ hd)
    obtain ⟨tw, wrun⟩ := wrregs_supplied wnone' wenv a hlen (wpar ▸ hd)
    rw [hchip, hpar] at hrun
    rw [wchip, wpar] at wrun
    exact modes_agree_of_framed hsw htrace wtrace hrun wrun (by simp)

/-! ### A dead bus in HW mode (70_reset_and_hazards.md section 3) -/

/-- No test target is attached and the next `n` bytes the bus returns are `b`. -/
structure DeadBus (b : Byte) (n : Nat) (s : State) : Prop where
  mode : s.cfg.mode = .hw
  noTarget : s.chip.fixture = none
  bytes : s.env.busIn = List.replicate n b

section
variable {b : Byte} {n : Nat} {s : State}

/-- The bus's next `k + 1` bytes, as a frame of `k` payload bytes takes them. -/
theorem DeadBus.env {k : Nat} (h : DeadBus b (n + k + 1) s) :
    s.env = supplied s.cfg.mode (b :: List.replicate k b) s.env.misoIn (List.replicate n b) s.env.drawn := by
  have hbytes := h.bytes
  rw [List.replicate_succ, Nat.add_comm, List.replicate_add] at hbytes
  rw [h.mode, supplied, List.cons_append, ← hbytes]

theorem DeadBus.of_framed {t : State} {xs : List (Byte × Byte)} {c : Chip} {bits : List Bit} {drawn : Nat}
    (hmode : s.cfg.mode = .hw) (h : Framed s t xs c ⟨bits, List.replicate n b, drawn⟩) (hc : c.fixture = none) :
    DeadBus b n t := ⟨h.cfg ▸ hmode, h.chip ▸ hc, by rw [h.env]⟩

theorem DeadBus.readFrame {k : Nat} (h : DeadBus b (n + k + 1) s) (a : Addr) :
    DeadBus b n (readFrame a k s) ∧ (readFrame a k s).work.rbuf = List.replicate k b := by
  have hframe := readFrame_supplied h.noTarget h.env a
  rw [List.length_replicate] at hframe
  obtain ⟨hframed, hbuf⟩ := hframe
  exact ⟨.of_framed h.mode hframed h.noTarget, hbuf⟩

theorem DeadBus.readOne (h : DeadBus b (n + 2) s) (a : Addr) :
    DeadBus b n (Machine.readFrame a 1 s) ∧ (Machine.readFrame a 1 s).rbufByte 0 = b := by
  obtain ⟨hdead, hbuf⟩ := DeadBus.readFrame (k := 1) h a
  exact ⟨hdead, by rw [State.rbufByte, hbuf]; rfl⟩

theorem DeadBus.writeOne (h : DeadBus b (n + 2) s) (a : Addr) (d : Byte) : DeadBus b n (writeFrame a [d] s) := by
  have hframed := writeFrame_supplied (DeadBus.env (k := 1) h) a (d := [d]) rfl
  refine .of_framed h.mode hframed ?_
  rw [Chip.written, ← Option.not_isSome_iff_eq_none, afterWrite_isSome]
  simp [h.noTarget]

/-- TRIG takes six bytes, and waits as long as the two registers read as `b` say. -/
theorem DeadBus.trigger (h : DeadBus b (n + 6) s) :
    DeadBus b n (trigger s) ∧ ∃ l, Ran s (Machine.trigger s) l [waitMs b b] := by
  obtain ⟨h1, hc0⟩ := DeadBus.readOne (n := n + 4) h s.par.addrCr0
  obtain ⟨h2, hc1⟩ := DeadBus.readOne (n := n + 2) h1 (Machine.readFrame s.par.addrCr0 1 s).par.addrCr1
  obtain ⟨_, _, r1, -⟩ := readOne_ran s.par.addrCr0 s
  obtain ⟨_, _, r2, -⟩ := readOne_ran (Machine.readFrame s.par.addrCr0 1 s).par.addrCr1 (Machine.readFrame s.par.addrCr0 1 s)
  rw [Machine.trigger, hc0, hc1]
  generalize Machine.readFrame (Machine.readFrame s.par.addrCr0 1 s).par.addrCr1 1 (Machine.readFrame s.par.addrCr0 1 s) = u at *
  obtain ⟨_, _, r3, -⟩ := writeOne_ran u.par.addrCr0 (triggerValue u.par b) u
  have h3 := h2.writeOne u.par.addrCr0 (triggerValue u.par b)
  exact ⟨⟨h3.mode, h3.noTarget, h3.bytes⟩, _, ((r1.trans r2).trans r3).waited (waitMs b b)⟩

theorem DeadBus.macrosOnMap (h : DeadBus b n s) : MacrosOnMap s := .inl h.noTarget

theorem getRegister_deadBus (h : DeadBus b (n + 2) s) (a : Addr) {r : Byte → Result} {v : Result} (hv : r b = v) :
    ∃ t, getRegister a r s = .next t ∧ t.result = v := by
  obtain ⟨-, hbyte⟩ := h.readOne a
  exact ⟨_, one_onTarget a 1 s _ (onMap_of_no_target a 1 h.noTarget), by rw [giveResult_result, hbyte, hv]⟩

theorem setavg_deadBus (h : DeadBus b (n + 2) s) (sel : BitVec 3) :
    ∃ (t : State) (x y w z : Byte), exec (.setavg sel) s = .next t ∧ t.result = .nothing ∧
      w.toNat = b.toNat / 128 * 128 + sel.toNat * 16 + b.toNat % 16 ∧ Sends s t (linkRmw s.par.addrCr1 x b y w z) := by
  obtain ⟨x, v, hran, -, hv, -⟩ := readOne_ran s.par.addrCr1 s
  obtain ⟨y, z, hran', -⟩ := writeOne_ran s.par.addrCr1 (insertSelector v sel) (readFrame s.par.addrCr1 1 s)
  obtain ⟨-, hbyte⟩ := h.readOne s.par.addrCr1
  have hrmw : rmw s.par.addrCr1 (fun v => insertSelector v sel) s =
      writeFrame s.par.addrCr1 [insertSelector v sel] (readFrame s.par.addrCr1 1 s) := by rw [rmw, hv]
  obtain rfl : v = b := hv.symm.trans hbyte
  have hsends := ((hran.trans hran').giveResult .nothing).sends
  rw [← hrmw] at hsends
  exact ⟨_, x, y, insertSelector v sel, z, rmw_onTarget _ s _ (onMap_of_no_target _ 1 h.noTarget), rfl,
    insertSelector_toNat v sel, hsends⟩

theorem rdtc_deadBus (h : DeadBus b (n + 10) s) {q : Rat} {w : Nat} (hq : toFloat (linearUnits b b b) 7 = q)
    (hw : waitMs b b = w) (hmax : 3 ≤ s.par.maxCount) :
    ∃ t evs, exec .rdtc s = .next t ∧ t.result = .float q ∧ t.trace = s.trace ++ evs ∧ delays evs = [w] := by
  obtain ⟨htrig, l, hran⟩ := DeadBus.trigger (n := n + 4) h
  obtain ⟨-, hbuf⟩ := DeadBus.readFrame (k := 3) htrig s.par.addrLtc
  obtain ⟨_, _, hran', -⟩ := readFrame_ran s.par.addrLtc 3 (trigger s)
  obtain ⟨evs, htrace, -, hdelays⟩ := ((hran.trans hran').decodeLinear b b b).wellBracketed
  exact ⟨_, evs, exec_rdtc_next hmax h.macrosOnMap hbuf, congrArg Result.float hq, htrace, hw ▸ hdelays⟩

theorem rdcj_deadBus (h : DeadBus b (n + 10) s) {q : Rat} {w : Nat} (hq : toFloat (sext 16 (raw16 b b)) 8 = q)
    (hw : waitMs b b = w) (hmax : 2 ≤ s.par.maxCount) :
    ∃ t evs, exec .rdcj s = .next t ∧ t.result = .float q ∧ t.trace = s.trace ++ evs ∧ delays evs = [w] := by
  obtain ⟨htrig, l, hran⟩ := DeadBus.trigger (n := n + 4) h
  obtain ⟨-, hbuf⟩ := DeadBus.readFrame (n := n + 1) (k := 2) htrig s.par.addrCjt
  obtain ⟨_, _, hran', -⟩ := readFrame_ran s.par.addrCjt 2 (trigger s)
  obtain ⟨evs, htrace, -, hdelays⟩ := ((hran.trans hran').decodeColdJunction b b).wellBracketed
  exact ⟨_, evs, exec_rdcj_next hmax h.macrosOnMap hbuf, congrArg Result.float hq, htrace, hw ▸ hdelays⟩

end

/-- Settles O45: the constants are the decoders', the fields' and the wait's values at 0xFF and at 0x00. -/
theorem deadBusReturnsGarbageWithoutASign : Obligations.DeadBusReturnsGarbageWithoutASign := by
  intro s n hm hnone hn
  obtain ⟨k, rfl⟩ := Nat.exists_eq_add_of_le' hn
  refine ⟨fun hbus => ?_, fun hbus => ?_⟩
  · have h : DeadBus 0xFF#8 (k + 10) s := ⟨hm, hnone, hbus⟩
    have h2 : DeadBus 0xFF#8 (k + 8 + 2) s := h
    rw [exec_rdfault, exec_getavg, exec_gettc, exec_getnf]
    refine ⟨rdtc_deadBus h (by decide) (by decide), rdcj_deadBus h (by decide) (by decide),
      getRegister_deadBus h2 _ rfl, getRegister_deadBus h2 _ (by decide), getRegister_deadBus h2 _ (by decide),
      getRegister_deadBus h2 _ (by decide), fun sel => ?_⟩
    obtain ⟨t, x, y, w, z, hexec, hres, hw, hsends⟩ := setavg_deadBus h2 sel
    exact ⟨t, x, y, w, z, hexec, hres, by simpa [Nat.add_right_comm] using hw, hsends⟩
  · have h : DeadBus 0x00#8 (k + 10) s := ⟨hm, hnone, hbus⟩
    have h2 : DeadBus 0x00#8 (k + 8 + 2) s := h
    rw [exec_rdfault, exec_getavg, exec_gettc, exec_getnf]
    refine ⟨rdtc_deadBus h (by decide) (by decide), rdcj_deadBus h (by decide) (by decide),
      getRegister_deadBus h2 _ rfl, getRegister_deadBus h2 _ (by decide), getRegister_deadBus h2 _ (by decide),
      getRegister_deadBus h2 _ (by decide), fun sel => ?_⟩
    obtain ⟨t, x, y, w, z, hexec, hres, hw, hsends⟩ := setavg_deadBus h2 sel
    exact ⟨t, x, y, w, z, hexec, hres, by simpa using hw, hsends⟩

end Sys2Proof.Machine
